-- ==== Sys2Proof/Word.lean ====
section
/-! DEFINITION. The widths of the hardware's values (00_scope.md R3, section 6; 41_fold_datapath.md R98): unsigned bit
patterns, bit 0 the least significant. -/

namespace Sys2Proof

/-- A 32-bit pattern: `acc`, `TABLE[i]`, `crc_q` (00_scope.md R3: `ACC_WIDTH`, `TABLE_WIDTH`). -/
abbrev Word := BitVec 32

/-- An 8-bit pattern: an input byte, a ROM index, a character code (00_scope.md R3: `BYTE_WIDTH`). -/
abbrev Byte := BitVec 8

/-- A 4-bit pattern: one hexadecimal digit of a word (41_fold_datapath.md R98). -/
abbrev Nibble := BitVec 4

/-- The 10-bit command word on the port `cmd` (30_encoding.md R50). -/
abbrev CmdWord := BitVec 10

/-- The 64-bit text bus `hex_q` (10_state.md R13). -/
abbrev TextBus := BitVec 64

end Sys2Proof
end

