-- ==== Sys2Proof/Syntax.lean ====
section
/-! DEFINITION. The four commands (30_encoding.md R52), one constructor per row of the opcode table. -/

namespace Sys2Proof

/-- A command. Each carries the `data` field of its word (30_encoding.md R51): the operand of BYTE, and for the other three
the ignored bits, kept so that a word and its command determine each other (DESIGN CHOICE, log entry 6; safe: no meaning
reads them). -/
inductive Instr where
  /-- NOP, `op = 00` (41_fold_datapath.md R92); `data` is ignored. -/
  | nop (data : Byte)
  /-- INIT, `op = 01` (41_fold_datapath.md R93); `data` is ignored. -/
  | init (data : Byte)
  /-- BYTE, `op = 10` (41_fold_datapath.md R94); `b` is the input byte. -/
  | byte (b : Byte)
  /-- FINAL, `op = 11` (42_finalizer_hex.md R114); `data` is ignored. -/
  | final (data : Byte)
  deriving DecidableEq, Repr

end Sys2Proof
end

