-- ==== Sys2Proof/Decode.lean ====
section
/-! DEFINITION. The decoder of the command word, total on all 1024 words (30_encoding.md R51, R52, R54), and its encoder. -/

namespace Sys2Proof

/-- The field `op = cmd[9:8]` (30_encoding.md R51). -/
def opField (w : CmdWord) : BitVec 2 := w.extractLsb' 8 2

/-- The field `data = cmd[7:0]` (30_encoding.md R51, R53: `cmd[0]` is its least significant bit). -/
def dataField (w : CmdWord) : Byte := w.extractLsb' 0 8

/-- The command of a word, by `cmd[9]` and `cmd[8]` (30_encoding.md R52). Total: "The decoder never faults and never
refuses" (R54). -/
def decode (w : CmdWord) : Instr :=
  match w.getLsbD 9, w.getLsbD 8 with
  | false, false => .nop (dataField w)
  | false, true => .init (dataField w)
  | true, false => .byte (dataField w)
  | true, true => .final (dataField w)

/-- Why a number is no command word. -/
inductive DecodeError where
  /-- The number needs more than the ten wires of `cmd` (30_encoding.md R50: one command length, 10 bits). -/
  | widerThanCommandWord
  deriving DecidableEq, Repr

/-- Decode a number of any size: the ten wires carry only numbers below 1024, every one of them a command (30_encoding.md
R54); a wider number is on no port. DESIGN CHOICE, log entry 4; safe. -/
def decodeNat (w : Nat) : Except DecodeError Instr :=
  if w < 2 ^ 10 then .ok (decode (BitVec.ofNat 10 w)) else .error .widerThanCommandWord

/-- The opcode of a command (30_encoding.md R52). -/
def Instr.opcode : Instr → BitVec 2
  | .nop _ => 0b00#2
  | .init _ => 0b01#2
  | .byte _ => 0b10#2
  | .final _ => 0b11#2

/-- The `data` field of a command (30_encoding.md R51). -/
def Instr.data : Instr → Byte
  | .nop data => data
  | .init data => data
  | .byte b => b
  | .final data => data

/-- The word of a command: `cmd[9:8] = op`, `cmd[7:0] = data` (30_encoding.md R51). -/
def encode (i : Instr) : CmdWord := i.opcode ++ i.data

/-- The mnemonic of a command (30_encoding.md R52). -/
def Instr.mnemonic : Instr → List Char
  | .nop _ => ['N', 'O', 'P']
  | .init _ => ['I', 'N', 'I', 'T']
  | .byte _ => ['B', 'Y', 'T', 'E']
  | .final _ => ['F', 'I', 'N', 'A', 'L']

/-- One row of the opcode map: a word `w` is the row's command when `w AND mask = pattern` (30_encoding.md R52). -/
structure OpcodeRow where
  mnemonic : List Char
  pattern : CmdWord
  mask : CmdWord
  deriving DecidableEq, Repr

/-- The opcode map (30_encoding.md R52, opcode_table.json). -/
def opcodeTable : List OpcodeRow :=
  [ { mnemonic := ['N', 'O', 'P'], pattern := 0x000#10, mask := 0x300#10 },
    { mnemonic := ['I', 'N', 'I', 'T'], pattern := 0x100#10, mask := 0x300#10 },
    { mnemonic := ['B', 'Y', 'T', 'E'], pattern := 0x200#10, mask := 0x300#10 },
    { mnemonic := ['F', 'I', 'N', 'A', 'L'], pattern := 0x300#10, mask := 0x300#10 } ]

/-- Whether a word is a row's command (30_encoding.md R52). -/
def OpcodeRow.covers (r : OpcodeRow) (w : CmdWord) : Bool := w &&& r.mask == r.pattern

/-- The command this decoder reads from the low `nbits` bits of `w`, numbered as opcode_table.json numbers them; none where
the number is wider than a command word (log entry 4). -/
def decodeTableWord (nbits w : Nat) : Option Instr :=
  (decodeNat (w % 2 ^ nbits)).toOption

end Sys2Proof
end

