-- ==== Sys2Proof/Config.lean ====
section
/-! DEFINITION. What is fixed for the machine (00_scope.md R3), the reset values (10_state.md R20), and the free values of
the one open parameter `P_PRE_RESET` (10_state.md R23). -/

namespace Sys2Proof.Config

/-- `POLY`, the reflected generator polynomial (00_scope.md R3). -/
def poly : Word := 0xEDB88320#32

/-- `ACC_INIT`, the initial accumulator value (00_scope.md R3). -/
def accInit : Word := 0xFFFFFFFF#32

/-- `TABLE_ITER`, the steps of the construction for one table entry (00_scope.md R3, 40_table_rom.md R70). -/
def tableIter : Nat := 8

/-- `HEX_CHARS`, the characters of the output text (00_scope.md R3). -/
def hexChars : Nat := 8

/-- Reset value of `crc_q` (10_state.md R20). -/
def resetCrc : Word := 0x00000000#32

/-- Reset value of `hex_q`, the text `00000000` (10_state.md R20). -/
def resetHex : TextBus := 0x3030303030303030#64

/-- Reset value of `out_valid` (10_state.md R20). -/
def resetValid : Bool := false

/-- `P_PRE_RESET` (10_state.md R23, 92_eei_decisions.md D20): `acc` before the first reset, a free value.
DESIGN CHOICE, log entry 3; safe, nothing can be proved of the value. -/
opaque preResetAcc : Word

/-- `P_PRE_RESET` (10_state.md R23): `crc_q` before the first reset, a free value. DESIGN CHOICE, log entry 3; safe. -/
opaque preResetCrc : Word

/-- `P_PRE_RESET` (10_state.md R23): `hex_q` before the first reset, a free value, not necessarily the text of anything.
DESIGN CHOICE, log entry 3; safe. -/
opaque preResetHex : TextBus

/-- `P_PRE_RESET` (10_state.md R23): `out_valid` before the first reset, a free value. DESIGN CHOICE, log entry 3; safe. -/
opaque preResetValid : Bool

end Sys2Proof.Config
end

