-- ==== Sys2Proof/Machine/State.lean ====
section
/-! DEFINITION. The state of one copy of the block (10_state.md R10), the state after reset (R20), the state before the first
reset (R23), and the outcomes that are not a next state: none is ever reached (60_exceptions.md R130). -/

namespace Sys2Proof.Machine

/-- What the host drives at one rising edge of `clk` (10_state.md R21, 30_encoding.md R59). -/
structure Edge where
  /-- The synchronous reset, active high (70_reset_and_hazards.md R151). -/
  rst : Bool
  /-- The command word (30_encoding.md R50). -/
  cmd : CmdWord
  deriving DecidableEq, Repr

/-- The four registers of the block (10_state.md R10), and the host's input to come. -/
structure State where
  /-- The checksum accumulator of the message in progress (10_state.md R11). -/
  acc : Word
  /-- The checksum of the most recently finalised message (10_state.md R12). -/
  crc_q : Word
  /-- The 8-character text of `crc_q`, first character in bits 63 to 56 (10_state.md R13). -/
  hex_q : TextBus
  /-- Whether a FINAL has been performed since reset (10_state.md R14). -/
  out_valid : Bool
  /-- The MODEL's own field, not a register: what the host will drive on `rst` and `cmd` at the coming edges, oldest first
  (30_encoding.md R50, R59; 70_reset_and_hazards.md R155). DESIGN CHOICE, log entry 1. -/
  pins : List Edge
  deriving DecidableEq, Repr

/-- How a step could stop with a fault: in no way, "The set of synchronous exceptions of this hardware is empty"
(60_exceptions.md R130). No constructor, so no one raises one; safe (log entry 10). -/
inductive Fault where
  deriving DecidableEq, Repr

/-- How a step could be refused. -/
inductive Refusal where
  /-- Raised by an arm of `exec` whose command has no meaning yet; no arm of this model raises it (log entry 10). Safe. -/
  | notModelled (mnemonic : String)
  deriving DecidableEq, Repr

/-- The machine after a reset edge (10_state.md R20), with no input waiting (the model's own, log entry 2). -/
def State.reset : State where
  acc := Config.accInit
  crc_q := Config.resetCrc
  hex_q := Config.resetHex
  out_valid := Config.resetValid
  pins := []

/-- The machine before its first reset: every register a free value (10_state.md R23, `P_PRE_RESET`; log entry 3), with the
host about to drive `pins`. -/
def State.preReset (pins : List Edge) : State where
  acc := Config.preResetAcc
  crc_q := Config.preResetCrc
  hex_q := Config.preResetHex
  out_valid := Config.preResetValid
  pins := pins

end Sys2Proof.Machine
end

