-- ==== Sys2Proof/Machine/Flags.lean ====
section
/-! DEFINITION. The one status flag, `out_valid` (10_state.md R14). There are no condition codes. -/

namespace Sys2Proof.Machine

/-- FINAL sets the flag (10_state.md R14, 42_finalizer_hex.md R114). -/
def State.setValid (s : State) : State := { s with out_valid := true }

/-- Reset clears the flag, and nothing else does (10_state.md R14). -/
def State.clearValid (s : State) : State := { s with out_valid := Config.resetValid }

end Sys2Proof.Machine
end

