-- ==== Sys2Proof/Machine/Hex.lean ====
section
/-! DEFINITION. The finalizer and the 8-character hex encoder (42_finalizer_hex.md R110 to R113, R118). -/

namespace Sys2Proof.Machine

/-- `FINALIZE(a) = NOT a`, 32 bits in and out (42_finalizer_hex.md R110). -/
def finalize (a : Word) : Word := ~~~a

/-- The sixteen characters of the output, digit value 0 first (42_finalizer_hex.md R112): lowercase, never upper case. -/
def hexAlphabet : List Char :=
  ['0', '1', '2', '3', '4', '5', '6', '7', '8', '9', 'a', 'b', 'c', 'd', 'e', 'f']

/-- The sixteen 8-bit codes, digit value 0 first (42_finalizer_hex.md R112). PRESUMED by the spec itself (93 G1), log entry 9. -/
def hexCodes : List Byte :=
  [0x30#8, 0x31#8, 0x32#8, 0x33#8, 0x34#8, 0x35#8, 0x36#8, 0x37#8,
   0x38#8, 0x39#8, 0x61#8, 0x62#8, 0x63#8, 0x64#8, 0x65#8, 0x66#8]

/-- There is a character for each 4-bit value (42_finalizer_hex.md R112). -/
theorem hexAlphabet_length : hexAlphabet.length = 16 := by decide

/-- There is a code for each 4-bit value (42_finalizer_hex.md R112). -/
theorem hexCodes_length : hexCodes.length = 16 := by decide

/-- `NIBBLE_CHAR(n)` (42_finalizer_hex.md R112). -/
def nibbleChar (n : Nibble) : Char := hexAlphabet[n.toNat]'(by rw [hexAlphabet_length]; exact n.isLt)

/-- The code column of 42_finalizer_hex.md R112, the 16-entry lookup of R120. -/
def nibbleCode (n : Nibble) : Byte := hexCodes[n.toNat]'(by rw [hexCodes_length]; exact n.isLt)

/-- The nibble `v[31-4k : 28-4k]`, the most significant for `k = 0` (42_finalizer_hex.md R111). -/
def nibbleAt (v : Word) (k : Nat) : Nibble := v.extractLsb' (28 - 4 * k) 4

/-- The character `t[k]` of `HEX8(v)` (42_finalizer_hex.md R111). -/
def hexChar (v : Word) (k : Nat) : Char := nibbleChar (nibbleAt v k)

/-- `HEX8(v)`: eight characters, the most significant nibble first, zero padded, no affix (42_finalizer_hex.md R111, R118). -/
def hex8 (v : Word) : List Char := (List.range Config.hexChars).map (hexChar v)

/-- The 8-bit code of a character of the output: its 7-bit ASCII code with bit 7 zero (42_finalizer_hex.md R112). PRESUMED by
the spec itself (93 G1), log entry 9. -/
def charCode (t : Char) : Byte := BitVec.ofNat 8 t.toNat

/-- `HEXBUS(v)`: the codes of `t[0] .. t[7]` concatenated, `t[0]` in bits 63 to 56 (42_finalizer_hex.md R113). -/
def hexbus (v : Word) : TextBus :=
  charCode (hexChar v 0) ++ charCode (hexChar v 1) ++ charCode (hexChar v 2) ++ charCode (hexChar v 3) ++
    charCode (hexChar v 4) ++ charCode (hexChar v 5) ++ charCode (hexChar v 6) ++ charCode (hexChar v 7)

end Sys2Proof.Machine
end

