-- ==== Sys2Proof/Machine/Operands.lean ====
section
/-! DEFINITION. The one operand form: the byte of BYTE, and the ROM index made from it (30_encoding.md R53). -/

namespace Sys2Proof.Machine

/-- `zext_32(b)`: the byte with bits 31 to 8 zero (30_encoding.md R53). -/
def zext32 (b : Byte) : Word := b.setWidth 32

/-- Step 1 of the fold: `(a XOR zext_32(b)) AND 0xFF`, taken as the 8-bit ROM index (41_fold_datapath.md R90, 20_memory.md
R33, R35). -/
def romIndex (a : Word) (b : Byte) : Byte := ((a ^^^ zext32 b) &&& 0x000000FF#32).setWidth 8

end Sys2Proof.Machine
end

