-- ==== Sys2Proof/Machine/Ops.lean ====
section
/-! DEFINITION. The named operations over the registers, the ROM and the input pins. There is no operation that takes an
exception and no return from one, because the hardware has neither (60_exceptions.md R130, R133). -/

namespace Sys2Proof.Machine

/-! ### The accumulator -/

/-- `FOLD` as the datapath does it: the ROM word at the index, XORed with the accumulator shifted right logically by 8
(41_fold_datapath.md R90, R91; the one ROM read of 20_memory.md R33). -/
def foldByte (a : Word) (b : Byte) : Word := romRead (romIndex a b) ^^^ (a >>> 8)

/-- Write the accumulator (10_state.md R11). -/
def State.setAcc (s : State) (a : Word) : State := { s with acc := a }

/-- Re-arm: `acc <- ACC_INIT` (41_fold_datapath.md R93, 42_finalizer_hex.md R114). -/
def State.rearm (s : State) : State := s.setAcc Config.accInit

/-! ### The result registers -/

/-- Write `crc_q` and its text `hex_q`, always together (10_state.md R12, R13; 42_finalizer_hex.md R114). -/
def State.setResult (s : State) (r : Word) : State := { s with crc_q := r, hex_q := hexbus r }

/-! ### The ports -/

/-- The output ports (10_state.md R21). -/
structure Outputs where
  crc_q : Word
  hex_q : TextBus
  out_valid : Bool
  deriving DecidableEq, Repr

/-- Each output port equals its register at all times; `acc` is on none (10_state.md R22). -/
def State.outputs (s : State) : Outputs where
  crc_q := s.crc_q
  hex_q := s.hex_q
  out_valid := s.out_valid

/-- Take what the host drives at the next rising edge, if the host drives a next edge (30_encoding.md R50, log entry 1). -/
def State.sampleEdge (s : State) : Option (Edge × State) :=
  match s.pins with
  | [] => none
  | e :: later => some (e, { s with pins := later })

/-- What an edge with `rst = 1` does, whatever the state and the command word (10_state.md R20; 70_reset_and_hazards.md R151). -/
def State.resetEdge (s : State) : State :=
  ({ s with acc := Config.accInit, crc_q := Config.resetCrc, hex_q := Config.resetHex } : State).clearValid

/-- Put a command word on `cmd` with `rst = 0` at the next edge, in place of what the host would drive there (log entry 5). -/
def State.presentCommand (s : State) (w : CmdWord) : State :=
  { s with pins := { rst := false, cmd := w } :: s.pins.tail }

end Sys2Proof.Machine
end

