-- ==== Sys2Proof/Machine/Accumulate.lean ====
section
/-! DEFINITION. The commands of the folding datapath: NOP, INIT, BYTE (41_fold_datapath.md section 2). -/

namespace Sys2Proof.Machine

/-- NOP: no register is written; `data` is ignored (41_fold_datapath.md R92). -/
def execNop (_data : Byte) (s : State) : Host.Outcome State Fault Refusal := .next s

/-- INIT: `acc <- 0xFFFFFFFF`; `data` is ignored (41_fold_datapath.md R93). -/
def execInit (_data : Byte) (s : State) : Host.Outcome State Fault Refusal := .next s.rearm

/-- BYTE: `acc <- FOLD(acc, b)` (41_fold_datapath.md R94). -/
def execByte (b : Byte) (s : State) : Host.Outcome State Fault Refusal := .next (s.setAcc (foldByte s.acc b))

end Sys2Proof.Machine
end

