-- ==== Sys2Proof/Machine/Finish.lean ====
section
/-! DEFINITION. The command that finalises a message: FINAL (42_finalizer_hex.md section 3). -/

namespace Sys2Proof.Machine

/-- FINAL: the result registers and the flag get the complement of `acc` as it was before the edge, and `acc` is re-armed, all
at one edge; `data` is ignored (42_finalizer_hex.md R114). -/
def execFinal (_data : Byte) (s : State) : Host.Outcome State Fault Refusal :=
  .next ((s.setResult (finalize s.acc)).setValid.rearm)

end Sys2Proof.Machine
end

