-- ==== Sys2Proof/Machine/Dispatch.lean ====
section
/-! DEFINITION. One arm per command: its meaning (30_encoding.md R59). -/

namespace Sys2Proof.Machine

def exec (i : Instr) (s : State) : Host.Outcome State Fault Refusal :=
  match i with
  | .nop data => Sys2Proof.Machine.execNop data s
  | .init data => Sys2Proof.Machine.execInit data s
  | .byte b => Sys2Proof.Machine.execByte b s
  | .final data => Sys2Proof.Machine.execFinal data s

end Sys2Proof.Machine
end

