-- ==== Sys2Proof/Machine/Step.lean ====
section
/-! DEFINITION. One rising edge of the clock: `STEP` (30_encoding.md R59). -/

namespace Sys2Proof.Machine

/-- `STEP(s, rst, cmd)` with `rst` and `cmd` as the host drives them at this edge: reset wins over the command
(60_exceptions.md R132), otherwise the command is executed (30_encoding.md R59). When the host drives no further edge there is
no edge, and every register stays (60_exceptions.md R140, 70_reset_and_hazards.md R150; DESIGN CHOICE, log entry 1). -/
def step (s : State) : Host.Outcome State Fault Refusal :=
  match s.sampleEdge with
  | none => .next s
  | some (e, t) => if e.rst then .next t.resetEdge else exec (decode e.cmd) t

/-- The state in which the next edge carries the command word whose bits are the low `nbits` of `w`, with `rst = 0`: the
ten wires of `cmd` take its low ten bits (log entry 5). -/
def State.withFetchWord (s : State) (nbits w : Nat) : State :=
  s.presentCommand (BitVec.ofNat 10 (w % 2 ^ nbits))

end Sys2Proof.Machine
end

