-- ==== Sys2Proof/Machine/Assembler.lean ====
section
/-! DEFINITION. The assembler text and the pseudo-instructions, and the disassembler (30_encoding.md R56, R57). Text is a list of
characters. What R56 and R57 leave open of the text's form is DESIGN CHOICE, log entry 14. -/

namespace Sys2Proof.Machine

/-- One line of assembler text: the four commands (30_encoding.md R56) and the four pseudo-instructions (R57). -/
inductive AsmLine where
  | nop
  | init
  | byte (n : Nat)
  | final
  | bytes (ns : List Nat)
  | ascii (text : List Char)
  | checksum (ns : List Nat)
  | idle (n : Nat)
  deriving DecidableEq, Repr

/-- Why a line is an assembly error, not a command. -/
inductive AsmError where
  /-- The line's first word is no mnemonic; mnemonics are upper case (30_encoding.md R56). -/
  | unknownMnemonic
  /-- The operands are not of the mnemonic's form (30_encoding.md R56, R57). -/
  | badOperands
  /-- "an operand outside `0..255` is an assembly error, not a command" (30_encoding.md R56). -/
  | operandOutOfRange
  /-- `ASCII` takes "printable 7-bit characters only" (30_encoding.md R57). -/
  | notPrintable
  deriving DecidableEq, Repr

/-- A printable 7-bit character: codes 0x20 to 0x7E (30_encoding.md R57; PRESUMED by the spec itself, 93 G2, log entry 9). -/
def isPrintable (c : Char) : Bool := 0x20 ≤ c.toNat && c.toNat ≤ 0x7E

/-- The operands of a line are in range (30_encoding.md R56, R57). -/
def AsmLine.wellFormed : AsmLine → Bool
  | .nop => true
  | .init => true
  | .byte n => n ≤ 255
  | .final => true
  | .bytes ns => ns.all (· ≤ 255)
  | .ascii text => text.all isPrintable
  | .checksum ns => ns.all (· ≤ 255)
  | .idle _ => true

/-- The command of an operand in range (30_encoding.md R56: `0x200 + n`). -/
def byteCommand (n : Nat) : Instr := .byte (BitVec.ofNat 8 n)

/-- The canonical NOP, INIT and FINAL, with `data = 0` (30_encoding.md R54, R56). -/
def nopCommand : Instr := .nop 0#8

/-- See `nopCommand`. -/
def initCommand : Instr := .init 0#8

/-- See `nopCommand`. -/
def finalCommand : Instr := .final 0#8

/-- The commands of a line whose operands are in range (30_encoding.md R56, R57). -/
def AsmLine.expand : AsmLine → List Instr
  | .nop => [nopCommand]
  | .init => [initCommand]
  | .byte n => [byteCommand n]
  | .final => [finalCommand]
  | .bytes ns => ns.map byteCommand
  | .ascii text => text.map (fun c => byteCommand c.toNat)
  | .checksum ns => initCommand :: (ns.map byteCommand ++ [finalCommand])
  | .idle n => List.replicate n nopCommand

/-- The assembly error of a line that is not well formed: a text with a wrong character, or an operand out of range. -/
def AsmLine.rangeError : AsmLine → AsmError
  | .ascii _ => .notPrintable
  | _ => .operandOutOfRange

/-- Assemble one line to its command words, in the order the host presents them (30_encoding.md R56, R57). -/
def AsmLine.assemble (l : AsmLine) : Except AsmError (List CmdWord) :=
  if l.wellFormed then .ok (l.expand.map encode) else .error l.rangeError

/-- Assemble lines in order; the first error stops. -/
def assembleLines : List AsmLine → Except AsmError (List CmdWord)
  | [] => .ok []
  | l :: later =>
    match l.assemble, assembleLines later with
    | .ok ws, .ok more => .ok (ws ++ more)
    | .ok _, .error e => .error e
    | .error e, _ => .error e

/-! ### Reading text -/

/-- The double quote, which encloses the text of `ASCII`. -/
def quoteChar : Char := Char.ofNat 0x22

/-- The end of a line. -/
def newline : Char := Char.ofNat 0x0A

/-- A space or a tab. -/
def isBlank (c : Char) : Bool := c == ' ' || c == Char.ofNat 0x09

/-- Drop blanks at both ends. -/
def trim (t : List Char) : List Char := ((t.dropWhile isBlank).reverse.dropWhile isBlank).reverse

/-- "a comment runs from `;` to the end of the line" (30_encoding.md R56); a `;` between quotes is text (log entry 14). -/
def dropComment : Bool → List Char → List Char
  | _, [] => []
  | quoted, c :: later =>
    if c == quoteChar then c :: dropComment (!quoted) later
    else if c == ';' && !quoted then []
    else c :: dropComment quoted later

/-- Cut a text at every `sep`; there is always at least one piece. -/
def cutAt (sep : Char) : List Char → List (List Char)
  | [] => [[]]
  | c :: later =>
    if c == sep then [] :: cutAt sep later
    else match cutAt sep later with
      | [] => [[c]]
      | piece :: pieces => (c :: piece) :: pieces

/-- The sixteen digits of the spec's `0xNN`, digit value 0 first; the disassembler writes these (log entry 14). -/
def upperDigits : List Char := ['0', '1', '2', '3', '4', '5', '6', '7', '8', '9', 'A', 'B', 'C', 'D', 'E', 'F']

/-- The value of a character as a digit of a list of digits: its place there, if it has one. -/
def digitOf (digits : List Char) (c : Char) : Option Nat := digits.findIdx? (· == c)

/-- The value of a decimal digit. -/
def decDigit : Char → Option Nat := digitOf (upperDigits.take 10)

/-- The value of a hexadecimal digit, in upper case as the spec writes operands or in lower case (log entry 14). -/
def hexDigit (c : Char) : Option Nat := (digitOf upperDigits c).or (digitOf hexAlphabet c)

/-- Read digits to a number, most significant first, on top of the number read so far. -/
def readDigits (base : Nat) (digit : Char → Option Nat) : Nat → List Char → Option Nat
  | n, [] => some n
  | n, c :: later =>
    match digit c with
    | none => none
    | some d => readDigits base digit (n * base + d) later

/-- Read an operand: `0x` and hexadecimal digits, or decimal digits; at least one digit. The two forms are those R56 gives for
BYTE (30_encoding.md R56); that `IDLE`, which R57 shows with a bare `n`, takes both as well is DESIGN CHOICE, log entry 15. -/
def readNumber (t : List Char) : Option Nat :=
  match t with
  | [] => none
  | ['0', 'x'] => none
  | '0' :: 'x' :: ds => readDigits 16 hexDigit 0 ds
  | ds => readDigits 10 decDigit 0 ds

/-- Read the operand list of `BYTES` and `CHECKSUM`: numbers between commas, or nothing (30_encoding.md R57: `k >= 0`).
R57 shows the numbers as `0xN` only; that a decimal number is read there too is DESIGN CHOICE, log entry 15. -/
def readNumbers (t : List Char) : Option (List Nat) :=
  if t.isEmpty then some [] else (cutAt ',' t).mapM (fun piece => readNumber (trim piece))

/-- Read the quoted operand of `ASCII` (30_encoding.md R57); a quote inside the text is not readable (log entry 14). -/
def readQuoted (t : List Char) : Option (List Char) :=
  match t with
  | [] => none
  | open_ :: later =>
    match later.reverse with
    | [] => none
    | close :: body =>
      if open_ == quoteChar && close == quoteChar && !body.contains quoteChar then some body.reverse else none

/-- A mnemonic that takes no operand. -/
def noOperand (l : AsmLine) (rest : List Char) : Except AsmError (Option AsmLine) :=
  if rest.isEmpty then .ok (some l) else .error .badOperands

/-- A mnemonic with an operand as read, or with one that could not be read. -/
def withOperand {α : Type} (mk : α → AsmLine) (operand : Option α) : Except AsmError (Option AsmLine) :=
  match operand with
  | none => .error .badOperands
  | some a => .ok (some (mk a))

/-- Read one line: none where the line holds nothing but blanks and a comment (30_encoding.md R56, R57). -/
def parseLine (t : List Char) : Except AsmError (Option AsmLine) :=
  let line := trim (dropComment false t)
  let word := line.takeWhile (!isBlank ·)
  let rest := trim (line.dropWhile (!isBlank ·))
  if line.isEmpty then .ok none
  else if word == ['N', 'O', 'P'] then noOperand .nop rest
  else if word == ['I', 'N', 'I', 'T'] then noOperand .init rest
  else if word == ['B', 'Y', 'T', 'E'] then withOperand .byte (readNumber rest)
  else if word == ['F', 'I', 'N', 'A', 'L'] then noOperand .final rest
  else if word == ['B', 'Y', 'T', 'E', 'S'] then withOperand .bytes (readNumbers rest)
  else if word == ['A', 'S', 'C', 'I', 'I'] then withOperand .ascii (readQuoted rest)
  else if word == ['C', 'H', 'E', 'C', 'K', 'S', 'U', 'M'] then withOperand .checksum (readNumbers rest)
  else if word == ['I', 'D', 'L', 'E'] then withOperand .idle (readNumber rest)
  else .error .unknownMnemonic

/-- Read lines in order; lines with nothing on them are left out, and the first error stops. -/
def parseLines : List (List Char) → Except AsmError (List AsmLine)
  | [] => .ok []
  | t :: later =>
    match parseLine t, parseLines later with
    | .ok none, .ok ls => .ok ls
    | .ok (some l), .ok ls => .ok (l :: ls)
    | .ok _, .error e => .error e
    | .error e, _ => .error e

/-- Assemble a text, one command per line (30_encoding.md R56), to its command words. -/
def assembleText (t : List Char) : Except AsmError (List CmdWord) :=
  match parseLines (cutAt newline t) with
  | .error e => .error e
  | .ok ls => assembleLines ls

/-! ### Writing text -/

/-- A byte as `0xNN` (30_encoding.md R56). -/
def writeByte (b : Byte) : List Char :=
  ['0', 'x', upperDigits.getD (b.toNat / 16) '?', upperDigits.getD (b.toNat % 16) '?']

/-- The note on the ignored bits of a word that is not canonical, as a comment: `; data=0xNN` (30_encoding.md R56). -/
def ignoredNote (data : Byte) : List Char := [' ', ';', ' ', 'd', 'a', 't', 'a', '='] ++ writeByte data

/-- What stands after the mnemonic of a command: the operand of BYTE; nothing for a canonical command; the note for one that is
not canonical (30_encoding.md R56). -/
def textAfterMnemonic : Instr → List Char
  | .byte b => ' ' :: writeByte b
  | .nop data => if data == 0#8 then [] else ignoredNote data
  | .init data => if data == 0#8 then [] else ignoredNote data
  | .final data => if data == 0#8 then [] else ignoredNote data

/-- "A disassembler prints a non-canonical word as its mnemonic followed by `; data=0xNN`" (30_encoding.md R56). -/
def disassemble (w : CmdWord) : List Char := (decode w).mnemonic ++ textAfterMnemonic (decode w)

end Sys2Proof.Machine
end

