-- ==== Sys2Proof/Machine/Blocks.lean ====
section
/-! DEFINITION. The four sub-blocks and their internal signals, as wiring (40_table_rom.md R76, 41_fold_datapath.md R99,
42_finalizer_hex.md R119, R120): a second description of one edge, which a statement compares with the machine's. -/

namespace Sys2Proof.Machine.Blocks

/-- `crc32_table_rom`: `rom_data = TABLE[rom_addr]`, combinational (40_table_rom.md R76). -/
def romData (rom_addr : Byte) : Word := romRead rom_addr

/-- `crc32_accumulator_folding_datapath`, output `rom_addr = acc[7:0] XOR data`, driven whatever `op` is
(41_fold_datapath.md R99). -/
def romAddr (acc : Word) (data : Byte) : Byte := acc.extractLsb' 0 8 ^^^ data

/-- The wiring of the logical shift: `folded` is the byte `0x00` above `acc[31:8]` (41_fold_datapath.md R91). -/
def folded (acc : Word) : Word := 0x00#8 ++ acc.extractLsb' 8 24

/-- `crc32_accumulator_folding_datapath`, next-value logic of `acc` (41_fold_datapath.md R99). -/
def accNext (rst : Bool) (op : BitVec 2) (rom_data acc : Word) : Word :=
  if rst || op == 0b01#2 || op == 0b11#2 then 0xFFFFFFFF#32
  else if op == 0b10#2 then rom_data ^^^ folded acc
  else acc

/-- `crc32_finalizer`: `crc_next = NOT acc` (42_finalizer_hex.md R119). -/
def crcNext (acc : Word) : Word := acc ^^^ 0xFFFFFFFF#32

/-- `hex_encoder_8char`: eight independent 4-bit-to-8-bit lookups, nibble `k` from the top feeding byte `k` from the top
(42_finalizer_hex.md R120). -/
def hexNext (crc_next : Word) : TextBus :=
  nibbleCode (crc_next.extractLsb' 28 4) ++ nibbleCode (crc_next.extractLsb' 24 4) ++
    nibbleCode (crc_next.extractLsb' 20 4) ++ nibbleCode (crc_next.extractLsb' 16 4) ++
    nibbleCode (crc_next.extractLsb' 12 4) ++ nibbleCode (crc_next.extractLsb' 8 4) ++
    nibbleCode (crc_next.extractLsb' 4 4) ++ nibbleCode (crc_next.extractLsb' 0 4)

/-- Whether the result registers load at this edge: a FINAL edge (42_finalizer_hex.md R120). -/
def load (rst : Bool) (op : BitVec 2) : Bool := !rst && op == 0b11#2

/-- One edge of CORE: the four registers load from the sub-blocks' signals (41_fold_datapath.md R99; 42_finalizer_hex.md R119,
R120), or their reset values (10_state.md R20). -/
def coreEdge (e : Edge) (s : State) : State :=
  let op := opField e.cmd
  let rom_addr := romAddr s.acc (dataField e.cmd)
  let crc_next := crcNext s.acc
  { acc := accNext e.rst op (romData rom_addr) s.acc
    crc_q := if e.rst then 0x00000000#32 else if load e.rst op then crc_next else s.crc_q
    hex_q := if e.rst then 0x3030303030303030#64 else if load e.rst op then hexNext crc_next else s.hex_q
    out_valid := if e.rst then false else if load e.rst op then true else s.out_valid
    pins := s.pins }

end Sys2Proof.Machine.Blocks
end

