-- ==== Sys2Proof/Machine/Instances.lean ====
section
/-! DEFINITION. Several copies of the block, one per concurrent caller: the product of copies of the machine, each with its own
four registers and its own input, all reading the one constant table (60_exceptions.md R138; 20_memory.md R40, R45). -/

namespace Sys2Proof.Machine

/-- The copies, each the whole machine of 30_encoding.md R59 (60_exceptions.md R138). They have no identifiers of their own: a
place in the list names one only to whoever schedules them. -/
abbrev Copies := List State

/-- Copy `k` takes one step, the others none; a place that holds no copy steps nothing (log entry 13). -/
def Copies.stepAt (all : Copies) (k : Nat) : Host.Outcome Copies Fault Refusal :=
  match all[k]? with
  | none => .next all
  | some s =>
    match step s with
    | .next t => .next (all.set k t)
    | .fault r => .fault r
    | .refused r => .refused r

/-- The copies step in the order of a schedule: any interleaving is one (60_exceptions.md R138, 93 U5). -/
def Copies.run : List Nat → Copies → Host.Outcome Copies Fault Refusal
  | [], all => .next all
  | k :: later, all =>
    match all.stepAt k with
    | .next moved => Copies.run later moved
    | .fault r => .fault r
    | .refused r => .refused r

end Sys2Proof.Machine
end

