-- ==== Sys2Proof/Machine/Checksum.lean ====
section
/-! DEFINITION. The functions the block exists to compute, each from its own rule and none of them through the machine: the
table by its construction (40_table_rom.md R70, R71), the fold on that table (41_fold_datapath.md R90), the accumulator after
a byte list (R96), the checksum (42_finalizer_hex.md R115). The machine reads the ROM's literal instead; that the two agree is
a statement, not a definition (40_table_rom.md R74, log entry 8). -/

namespace Sys2Proof.Machine

/-- `TSTEP(c)`: the low bit tested is that of `c` before the shift (40_table_rom.md R71, 90_conflicts.md C4). -/
def tstep (c : Word) : Word := if c.getLsbD 0 then (c >>> 1) ^^^ Config.poly else c >>> 1

/-- `f` applied `n` times, the loop of 40_table_rom.md R70. -/
def repeatStep (f : Word → Word) : Nat → Word → Word
  | 0, c => c
  | n + 1, c => repeatStep f n (f c)

/-- `TABLE[i]`: eight steps from the index, which is not reversed (40_table_rom.md R70, R77). -/
def table (i : Byte) : Word := repeatStep tstep Config.tableIter (zext32 i)

/-- `FOLD(a, b)` on the constructed table (41_fold_datapath.md R90, R91). -/
def fold (a : Word) (b : Byte) : Word := table (romIndex a b) ^^^ (a >>> 8)

/-- `FOLD` over a byte list, in sequence order, from any accumulator (41_fold_datapath.md R95, R96). -/
def foldBytes (a : Word) (bs : List Byte) : Word := bs.foldl fold a

/-- `ACC_AFTER(bs)` (41_fold_datapath.md R96). -/
def accAfter (bs : List Byte) : Word := foldBytes Config.accInit bs

/-- `CRC32(bs)` (42_finalizer_hex.md R115). -/
def crc32 (bs : List Byte) : Word := finalize (accAfter bs)

/-- `CHECKSUM(bs)`, the eight characters (42_finalizer_hex.md R115). -/
def checksum (bs : List Byte) : List Char := hex8 (crc32 bs)

end Sys2Proof.Machine
end

