-- ==== Sys2Proof/Machine/Messages.lean ====
section
/-! DEFINITION. Messages on the command interface: which edges carry the bytes of a message (41_fold_datapath.md R96,
42_finalizer_hex.md R116), and the block seen as a holder of messages, not of registers (60_exceptions.md R141, R142;
70_reset_and_hazards.md R160). Claims are stated in these terms; the machine does not use them. -/

namespace Sys2Proof.Machine

/-- `STEP(s, rst, cmd)` as 30_encoding.md R59 writes it, on the functions of the rules and not through the machine. The input
the host has yet to drive is no part of it. -/
def stepFunction (s : State) (e : Edge) : State :=
  if e.rst = true then
    { s with acc := 0xFFFFFFFF#32, crc_q := 0x00000000#32, hex_q := 0x3030303030303030#64, out_valid := false }
  else if e.cmd.extractLsb' 8 2 = 0b00#2 then s
  else if e.cmd.extractLsb' 8 2 = 0b01#2 then { s with acc := 0xFFFFFFFF#32 }
  else if e.cmd.extractLsb' 8 2 = 0b10#2 then { s with acc := fold s.acc (e.cmd.extractLsb' 0 8) }
  else
    { s with acc := 0xFFFFFFFF#32, crc_q := finalize s.acc, hex_q := hexbus (finalize s.acc), out_valid := true }

/-- The state in which the host will drive `es` at the next edges, and then what it was about to drive. -/
def State.drive (s : State) (es : List Edge) : State := { s with pins := es ++ s.pins }

/-- The run over the edges `es`, one step for each, from `s` (30_encoding.md R59: "A run of the hardware is the iteration of
`STEP` over the sequence of `(rst, cmd)` pairs the host presents"). -/
def State.runOver (s : State) (es : List Edge) : Host.Outcome State Fault Refusal :=
  Host.Core.run Sys2Proof.core es.length (s.drive es)

/-- The edge on which the host presents a command without reset. -/
def Edge.command (i : Instr) : Edge := { rst := false, cmd := encode i }

/-- An edge inside a message: no reset, and a BYTE or a NOP (42_finalizer_hex.md R116). -/
def Edge.isBody (e : Edge) : Bool :=
  !e.rst && match decode e.cmd with
    | .nop _ => true
    | .init _ => false
    | .byte _ => true
    | .final _ => false

/-- An edge that carries a NOP without reset: an idle cycle (41_fold_datapath.md R92). -/
def Edge.isIdle (e : Edge) : Bool :=
  !e.rst && match decode e.cmd with
    | .nop _ => true
    | .init _ => false
    | .byte _ => false
    | .final _ => false

/-- An edge that carries a FINAL without reset. -/
def Edge.isFinal (e : Edge) : Bool :=
  !e.rst && match decode e.cmd with
    | .nop _ => false
    | .init _ => false
    | .byte _ => false
    | .final _ => true

/-- An edge after which `acc` holds `ACC_INIT`: reset, INIT or FINAL (00_scope.md R6). -/
def Edge.isRearm (e : Edge) : Bool :=
  e.rst || match decode e.cmd with
    | .nop _ => false
    | .init _ => true
    | .byte _ => false
    | .final _ => true

/-- The bytes that the BYTE commands of a sequence of edges carry, in time order (41_fold_datapath.md R95). -/
def bytesOf : List Edge → List Byte
  | [] => []
  | e :: later =>
    match e.rst, decode e.cmd with
    | false, .byte b => b :: bytesOf later
    | _, _ => bytesOf later

/-- The block as a host sees it: the bytes folded since the last re-arm, and the last finalised message since reset. -/
structure Exchange where
  /-- The bytes of the message in progress, in order. -/
  current : List Byte
  /-- The message whose result is on the ports; none since reset. -/
  published : Option (List Byte)
  deriving DecidableEq, Repr

/-- The exchange after a reset edge: no byte folded, no result (10_state.md R20). -/
def Exchange.reset : Exchange where
  current := []
  published := none

/-- What an edge does to the exchange (60_exceptions.md R132, R141). -/
def Exchange.edge (m : Exchange) (e : Edge) : Exchange :=
  if e.rst then Exchange.reset
  else match decode e.cmd with
    | .nop _ => m
    | .init _ => { m with current := [] }
    | .byte b => { m with current := m.current ++ [b] }
    | .final _ => { current := [], published := some m.current }

/-- The checksum the ports carry: that of the published message, `0x00000000` before any (10_state.md R12, R20). -/
def Exchange.result (m : Exchange) : Word :=
  match m.published with
  | none => Config.resetCrc
  | some bs => crc32 bs

/-- The registers of `s` are those of the exchange `m`: the accumulator of the message in progress, and the checksum, text and
flag of the last finalised one (10_state.md R11 to R14, R24). -/
def Exchange.Represents (m : Exchange) (s : State) : Prop :=
  s.acc = accAfter m.current ∧ s.crc_q = m.result ∧ s.hex_q = hexbus m.result ∧ s.out_valid = m.published.isSome

end Sys2Proof.Machine
end

