-- ==== Sys2Proof/Safety.lean ====
section
/-! DEFINITION. What counts as a safe state and a safe run, in the terms claims use. -/

namespace Sys2Proof.Machine

/-- The text beside the checksum is the checksum's own: `hex_q = HEXBUS(crc_q)` (10_state.md R24). -/
def State.TextMatches (s : State) : Prop := s.hex_q = hexbus s.crc_q

/-- While the flag says that there is no result, `crc_q` holds its reset value (10_state.md R12, R14, R20). -/
def State.FlagHonest (s : State) : Prop := s.out_valid = false → s.crc_q = Config.resetCrc

/-- The invariant of every state reachable from reset (10_state.md R24, with R12 and R14). -/
def State.Inv (s : State) : Prop := s.TextMatches ∧ s.FlagHonest

/-- The character codes the hardware emits (42_finalizer_hex.md R112). -/
def isHexCode (c : Byte) : Bool := hexCodes.contains c

/-- A run of `k` edges is safe: it ends in a state, with no fault and no refusal on the way (60_exceptions.md R130). -/
def SafeRun (k : Nat) (s : State) : Prop := ∃ t : State, Host.Core.run Sys2Proof.core k s = .next t

end Sys2Proof.Machine
end

