-- ==== Sys2Proof/WellFormed.lean ====
section
/-! DEFINITION. Which commands are well formed (30_encoding.md R54). -/

namespace Sys2Proof

/-- Every command is legal: "No command word is illegal, reserved, a hint or custom" (30_encoding.md R54), and the one
operand's range 0 to 255 is its type (R53). So the check refuses nothing. -/
def Instr.wellFormed : Instr → Bool
  | .nop _ => true
  | .init _ => true
  | .byte _ => true
  | .final _ => true

/-- The canonical form, which an assembler emits: `data = 0` for NOP, INIT and FINAL (30_encoding.md R54, R56). Commands
that are not canonical are legal and behave the same. -/
def Instr.canonical : Instr → Bool
  | .nop data => data == 0#8
  | .init data => data == 0#8
  | .byte _ => true
  | .final data => data == 0#8

end Sys2Proof
end

