-- ==== Sys2Proof/Certificates/Slice0/Obligations.lean ====
section
/-! DEFINITION. The statements for the provers, from the numbered rules of the spec. Every statement about a state holds for
every state, so also before the first reset (10_state.md R23). -/

open Sys2Proof Sys2Proof.Machine

/-! ### Reset and the step -/

/-- 10_state.md R20, 60_exceptions.md R132, 70_reset_and_hazards.md R152: an edge with `rst = 1` leaves the reset values whatever the state and the command
word; and `State.reset` holds them. -/
def Obligations.ResetEdgeLeavesResetValues : Prop :=
  (∀ (s : State) (cmd : CmdWord),
    s.runOver [{ rst := true, cmd := cmd }] =
      .next { s with acc := 0xFFFFFFFF#32, crc_q := 0x00000000#32, hex_q := 0x3030303030303030#64, out_valid := false }) ∧
  State.reset.acc = 0xFFFFFFFF#32 ∧ State.reset.crc_q = 0x00000000#32 ∧
  State.reset.hex_q = 0x3030303030303030#64 ∧ State.reset.out_valid = false

/-- 70_reset_and_hazards.md R151: reset edges repeated change nothing more than one does, and the first edge with `rst = 0`
executes its command with no recovery time. -/
def Obligations.HeldResetRepeatsAndReleasesAtOnce : Prop :=
  ∀ (s : State) (es : List Edge) (cmd : CmdWord),
    es ≠ [] → (∀ e ∈ es, e.rst = true) →
    s.runOver es =
      .next { s with acc := 0xFFFFFFFF#32, crc_q := 0x00000000#32, hex_q := 0x3030303030303030#64, out_valid := false } ∧
    s.runOver (es ++ [{ rst := false, cmd := cmd }]) =
      exec (decode cmd)
        { s with acc := 0xFFFFFFFF#32, crc_q := 0x00000000#32, hex_q := 0x3030303030303030#64, out_valid := false }

/-- The step at an edge with `rst = 0` is the meaning of the decoded command on the state with that edge taken; the word
`withFetchWord` presents is the one the next step runs; with no edge to come a step changes nothing (log entries 1 and 5). -/
def Obligations.StepRunsDecodedCommand : Prop :=
  (∀ (s : State) (cmd : CmdWord) (later : List Edge),
    s.pins = { rst := false, cmd := cmd } :: later → step s = exec (decode cmd) { s with pins := later }) ∧
  (∀ (s : State) (nbits w : Nat),
    step (s.withFetchWord nbits w) = exec (decode (BitVec.ofNat 10 (w % 2 ^ nbits))) { s with pins := s.pins.tail }) ∧
  (∀ s : State, s.pins = [] → step s = .next s)

/-- 30_encoding.md R59: one edge takes the state to `STEP(s, rst, cmd)`, written out, and a run is the iteration of `STEP` over
the pairs the host presents. `fold` is on the table of 40_table_rom.md R70, not on the ROM's literal. -/
def Obligations.EdgeIsStepFunction : Prop :=
  (∀ (s : State) (rst : Bool) (cmd : CmdWord),
    s.runOver [{ rst := rst, cmd := cmd }] = .next (
      if rst = true then
        { s with acc := 0xFFFFFFFF#32, crc_q := 0x00000000#32, hex_q := 0x3030303030303030#64, out_valid := false }
      else if cmd.extractLsb' 8 2 = 0b00#2 then s
      else if cmd.extractLsb' 8 2 = 0b01#2 then { s with acc := 0xFFFFFFFF#32 }
      else if cmd.extractLsb' 8 2 = 0b10#2 then { s with acc := fold s.acc (cmd.extractLsb' 0 8) }
      else
        { s with acc := 0xFFFFFFFF#32, crc_q := ~~~s.acc, hex_q := hexbus (~~~s.acc), out_valid := true })) ∧
  (∀ (s : State) (es : List Edge), s.runOver es = .next (es.foldl stepFunction s))

/-- 60_exceptions.md R130: no command raises an exception in any state with any operand; every run of any length ends in a
state. -/
def Obligations.NoFaultAndNoRefusal : Prop :=
  (∀ (i : Instr) (s : State), ∃ t, exec i s = .next t) ∧ ∀ (k : Nat) (s : State), SafeRun k s

/-! ### Encoding -/

/-- 30_encoding.md R51: the word is `op` above `data`, bit by bit and as the number `op * 256 + data`. -/
def Obligations.CommandWordIsOpAboveData : Prop :=
  (∀ (w : CmdWord) (j : Nat), j < 2 → (opField w).getLsbD j = w.getLsbD (8 + j)) ∧
  (∀ (w : CmdWord) (j : Nat), j < 8 → (dataField w).getLsbD j = w.getLsbD j) ∧
  (∀ w : CmdWord, w.toNat = (opField w).toNat * 256 + (dataField w).toNat)

/-- From 30_encoding.md section 1: decoding and encoding undo each other, on every command and on every word, and the word is
`op * 256 + data`. That encoding a decoded word gives back every word rests on the model's choice to keep the ignored `data`
field in the commands (log entry 6). -/
def Obligations.DecodeEncodeInverse : Prop :=
  (∀ i : Instr, decode (encode i) = i) ∧
  (∀ w : CmdWord, encode (decode w) = w) ∧
  (∀ w : CmdWord, w.toNat = (opField w).toNat * 256 + (dataField w).toNat) ∧
  (∀ i : Instr, (encode i).toNat = i.opcode.toNat * 256 + i.data.toNat)

/-- 30_encoding.md R52: each word is covered by exactly one row of the opcode map, and is that row's command with that row's
effect. -/
def Obligations.OpcodeMapPartitionsWords : Prop :=
  opcodeTable = [⟨['N', 'O', 'P'], 0x000#10, 0x300#10⟩, ⟨['I', 'N', 'I', 'T'], 0x100#10, 0x300#10⟩,
    ⟨['B', 'Y', 'T', 'E'], 0x200#10, 0x300#10⟩, ⟨['F', 'I', 'N', 'A', 'L'], 0x300#10, 0x300#10⟩] ∧
  ∀ w : CmdWord,
    (∃ r, opcodeTable.filter (fun r => r.covers w) = [r] ∧ r.mnemonic = (decode w).mnemonic) ∧
    (w &&& 0x300#10 = 0x000#10 → ∀ s : State, exec (decode w) s = .next s) ∧
    (w &&& 0x300#10 = 0x100#10 → ∀ s : State, exec (decode w) s = .next { s with acc := 0xFFFFFFFF#32 }) ∧
    (w &&& 0x300#10 = 0x200#10 → ∀ s : State,
      exec (decode w) s = .next { s with acc := fold s.acc (w.extractLsb' 0 8) }) ∧
    (w &&& 0x300#10 = 0x300#10 → ∀ s : State,
      exec (decode w) s =
        .next { s with acc := 0xFFFFFFFF#32, crc_q := ~~~s.acc, hex_q := hexbus (~~~s.acc), out_valid := true })

/-- 30_encoding.md R54: every word is an ordinary command in every state; the words with ignored bits set are the same NOP,
INIT and FINAL; the canonical encodings have `data = 0`. -/
def Obligations.NoWordIsIllegalAndDataIsIgnored : Prop :=
  (∀ (w : CmdWord) (s : State), ∃ t, exec (decode w) s = .next t) ∧
  (∀ d : Byte, decode (0x000#10 + d.setWidth 10) = .nop d ∧ decode (0x100#10 + d.setWidth 10) = .init d ∧
    decode (0x300#10 + d.setWidth 10) = .final d) ∧
  (∀ (d : Byte) (s : State), exec (.nop d) s = exec (.nop 0#8) s ∧ exec (.init d) s = exec (.init 0#8) s ∧
    exec (.final d) s = exec (.final 0#8) s) ∧
  (∀ d : Byte, ((Instr.nop d).canonical = true ↔ d = 0#8) ∧ ((Instr.init d).canonical = true ↔ d = 0#8) ∧
    ((Instr.final d).canonical = true ↔ d = 0#8))

/-- Words written out bit by bit from the format of 30_encoding.md R51 and the opcodes of R52 decode to their commands. -/
def Obligations.WordsOutOfBitsDecode : Prop :=
  decode 0b0000000000#10 = .nop 0x00#8 ∧ decode 0b0010100101#10 = .nop 0xA5#8 ∧
  decode 0b0100000000#10 = .init 0x00#8 ∧ decode 0b0111111111#10 = .init 0xFF#8 ∧
  decode 0b1001110100#10 = .byte 0x74#8 ∧ decode 0b1000000001#10 = .byte 0x01#8 ∧
  decode 0b1100000000#10 = .final 0x00#8 ∧ decode 0b1110101011#10 = .final 0xAB#8

/-- The model's choice, log entry 4: a number that fits the ten wires decodes as its word, a wider one is no command. -/
def Obligations.NumbersBeyondTenBitsAreNoCommand : Prop :=
  ∀ nbits w : Nat,
    (w % 2 ^ nbits < 1024 → decodeTableWord nbits w = some (decode (BitVec.ofNat 10 (w % 2 ^ nbits)))) ∧
    (1024 ≤ w % 2 ^ nbits → decodeTableWord nbits w = none)

/-! ### The table ROM -/

/-- 40_table_rom.md R71: `TSTEP` tests the low bit before the shift; the form without a branch is the same; the anchor that
decides the reading. -/
def Obligations.TableStepTestsLowBitBeforeShift : Prop :=
  (∀ c : Word, (c.getLsbD 0 = true → tstep c = (c >>> 1) ^^^ 0xEDB88320#32) ∧
    (c.getLsbD 0 = false → tstep c = c >>> 1)) ∧
  (∀ c : Word, tstep c = (c >>> 1) ^^^ (0xEDB88320#32 &&& BitVec.fill 32 (c.getLsbD 0))) ∧
  table 0x01#8 = 0x77073096#32

/-- 40_table_rom.md R70, R73: the ROM's literal holds, at every index, the index taken through `TSTEP` eight times; the two
anchors. -/
def Obligations.RomHoldsConstructedTable : Prop :=
  (∀ i : Byte, romRead i = table i ∧
    table i = tstep (tstep (tstep (tstep (tstep (tstep (tstep (tstep (i.setWidth 32))))))))) ∧
  romRead 0x00#8 = 0x00000000#32 ∧ romRead 0x01#8 = 0x77073096#32

/-- 40_table_rom.md R78: the properties of the table, on the ROM's literal. -/
def Obligations.TableIsLinearWithPermutedEnds : Prop :=
  ((∀ x y : Word, tstep (x ^^^ y) = tstep x ^^^ tstep y) ∧ tstep 0#32 = 0#32 ∧
    (∀ i j : Byte, romRead (i ^^^ j) = romRead i ^^^ romRead j) ∧ romRead 0#8 = 0#32) ∧
  (romRead 0x01#8 = 0x77073096#32 ∧ romRead 0x02#8 = 0xEE0E612C#32 ∧ romRead 0x04#8 = 0x076DC419#32 ∧
    romRead 0x08#8 = 0x0EDB8832#32 ∧ romRead 0x10#8 = 0x1DB71064#32 ∧ romRead 0x20#8 = 0x3B6E20C8#32 ∧
    romRead 0x40#8 = 0x76DC4190#32 ∧ romRead 0x80#8 = 0xEDB88320#32) ∧
  (∀ i j : Byte, romRead i = romRead j → i = j) ∧
  ((∀ v : Byte, ∃ i : Byte, (romRead i).extractLsb' 24 8 = v) ∧ (∀ v : Byte, ∃ i : Byte, (romRead i).extractLsb' 0 8 = v)) ∧
  (∀ i : Byte, romRead i = 0#32 → i = 0#8)

/-- 20_memory.md R35: the index of a BYTE is always one of the ROM's 256 words, whatever the accumulator and the byte. -/
def Obligations.RomIndexIsAlwaysInRange : Prop :=
  romContents.length = 256 ∧
  ∀ (a : Word) (b : Byte),
    ((a ^^^ b.setWidth 32) &&& 0x000000FF#32).toNat < 256 ∧
    (romIndex a b).toNat = ((a ^^^ b.setWidth 32) &&& 0x000000FF#32).toNat ∧
    romContents[((a ^^^ b.setWidth 32) &&& 0x000000FF#32).toNat]? = some (romRead (romIndex a b))

/-- 95_test_vectors.md program P4: through the ports, a one-byte message reads any word of the ROM. -/
def Obligations.PortsProbeEveryRomWord : Prop :=
  ∀ (s : State) (i d d' : Byte),
    ∃ t, s.runOver [Edge.command (.init d), Edge.command (.byte (i ^^^ 0xFF#8)), Edge.command (.final d')] = .next t ∧
      romRead i = t.crc_q ^^^ 0xFF000000#32

/-! ### NOP, INIT, BYTE -/

/-- 41_fold_datapath.md R92: NOP writes no register, whatever its `data`; idle cycles anywhere are invisible to a run. -/
def Obligations.NopChangesNothing : Prop :=
  (∀ (d : Byte) (s : State), exec (.nop d) s = .next s) ∧
  (∀ d : Byte, opField (encode (.nop d)) = 0b00#2) ∧ encode (.nop 0#8) = 0x000#10 ∧
  (∀ (s : State) (es : List Edge), s.runOver es = s.runOver (es.filter (fun e => !e.isIdle)))

/-- 41_fold_datapath.md R93: INIT re-arms the accumulator and changes nothing else, whatever its `data`; it is idempotent,
changes nothing directly after reset or FINAL, and leaves no trace of the bytes folded before it. -/
def Obligations.InitRearmsAccumulatorOnly : Prop :=
  (∀ (d : Byte) (s : State), exec (.init d) s = .next { s with acc := 0xFFFFFFFF#32 }) ∧
  (∀ d : Byte, opField (encode (.init d)) = 0b01#2) ∧ encode (.init 0#8) = 0x100#10 ∧
  (∀ (d d' : Byte) (s : State),
    s.runOver [Edge.command (.init d), Edge.command (.init d')] = s.runOver [Edge.command (.init d)]) ∧
  (∀ (e : Edge) (d : Byte) (s : State), e.rst = true ∨ e.isFinal = true →
    s.runOver [e, Edge.command (.init d)] = s.runOver [e]) ∧
  (∀ (d : Byte) (s : State) (bs : List Byte) (d' : Byte),
    s.runOver (bs.map (fun b => Edge.command (.byte b)) ++ [Edge.command (.init d)]) =
      s.runOver [Edge.command (.init d')]) ∧
  (∀ s : State, s.acc = 0x7323E97C#32 → exec (.init 0#8) s = .next { s with acc := 0xFFFFFFFF#32 })

/-- 41_fold_datapath.md R94, R90: BYTE puts `TABLE[(acc XOR b) AND 0xFF] XOR (acc SHR 8)` in the accumulator and changes
nothing else, for every accumulator and byte; the table is the construction of 40_table_rom.md R70. -/
def Obligations.ByteFoldsAccumulatorOnly : Prop :=
  (∀ (b : Byte) (s : State),
    exec (.byte b) s =
      .next { s with acc := table (((s.acc ^^^ b.setWidth 32) &&& 0x000000FF#32).setWidth 8) ^^^ (s.acc >>> 8) }) ∧
  (∀ (a : Word) (b : Byte),
    fold a b = table (((a ^^^ b.setWidth 32) &&& 0x000000FF#32).setWidth 8) ^^^ (a >>> 8) ∧
    ((a ^^^ b.setWidth 32) &&& 0x000000FF#32).setWidth 8 = a.extractLsb' 0 8 ^^^ b) ∧
  (∀ b : Byte, encode (.byte b) = 0x200#10 + b.setWidth 10) ∧
  fold 0xFFFFFFFF#32 0x00#8 = 0x2DFD1072#32 ∧
  (∀ a : Word, fold a (a.extractLsb' 0 8) = a >>> 8) ∧
  fold 0x00000000#32 0x00#8 = 0x00000000#32 ∧
  fold 0xFFFFFFFF#32 0x74#8 = 0x7A95A557#32

/-- 41_fold_datapath.md R91: the shift of the fold fills with zeros whatever the top bit, and is the wiring
`folded = 0x00, a[31:8]`. -/
def Obligations.FoldShiftFillsWithZeros : Prop :=
  (∀ a : Word, (a >>> 8).extractLsb' 24 8 = 0x00#8 ∧ a >>> 8 = (0x00#8 ++ a.extractLsb' 8 24 : BitVec 32)) ∧
  (∀ (a : Word) (b : Byte),
    (foldByte a b).extractLsb' 24 8 = (romRead (a.extractLsb' 0 8 ^^^ b)).extractLsb' 24 8) ∧
  foldByte 0x80000000#32 0x00#8 = 0x00800000#32

/-- From 40_table_rom.md R78 and 41_fold_datapath.md R90: the fold is linear over XOR in both arguments together. -/
def Obligations.FoldIsLinear : Prop :=
  ∀ (a a' : Word) (b b' : Byte), fold (a ^^^ a') (b ^^^ b') = fold a b ^^^ fold a' b'

/-- From 40_table_rom.md R78 and 41_fold_datapath.md R90: no two accumulators fold together under one byte, and no two bytes
under one accumulator. -/
def Obligations.FoldIsInjective : Prop :=
  (∀ (b : Byte) (a a' : Word), fold a b = fold a' b → a = a') ∧
  (∀ (a : Word) (b b' : Byte), fold a b = fold a b' → b = b')

/-! ### FINAL, the finalizer and the hex encoder -/

/-- 42_finalizer_hex.md R114: FINAL writes the complement of the accumulator to `crc_q`, its text to `hex_q`, sets the flag and
re-arms, all from the state before the edge, whatever its `data`; the empty message gives zero, also directly after another
FINAL. -/
def Obligations.FinalPublishesChecksumAndRearms : Prop :=
  (∀ (d : Byte) (s : State),
    exec (.final d) s =
      .next { s with acc := 0xFFFFFFFF#32, crc_q := ~~~s.acc, hex_q := hexbus (~~~s.acc), out_valid := true }) ∧
  (∀ d : Byte, opField (encode (.final d)) = 0b11#2) ∧ encode (.final 0#8) = 0x300#10 ∧
  (∀ (d : Byte) (s : State), s.acc = 0xFFFFFFFF#32 →
    exec (.final d) s = .next { s with crc_q := 0x00000000#32, hex_q := 0x3030303030303030#64, out_valid := true }) ∧
  (∀ (e : Edge) (d : Byte) (s : State), e.rst = true ∨ e.isFinal = true →
    s.runOver [e, Edge.command (.final d)] =
      .next { s with acc := 0xFFFFFFFF#32, crc_q := 0x00000000#32, hex_q := 0x3030303030303030#64, out_valid := true }) ∧
  (∀ (d : Byte) (s : State), s.acc = 0x278081F3#32 →
    exec (.final d) s =
      .next { s with acc := 0xFFFFFFFF#32, crc_q := 0xD87F7E0C#32, hex_q := 0x6438376637653063#64, out_valid := true })

/-- 42_finalizer_hex.md R110: `FINALIZE` inverts each of the 32 bits, is XOR with `0xFFFFFFFF`, and is its own inverse. -/
def Obligations.FinalizerComplementsEveryBit : Prop :=
  (∀ a : Word, finalize a = a ^^^ 0xFFFFFFFF#32) ∧
  (∀ (a : Word) (j : Nat), j < 32 → (finalize a).getLsbD j = !a.getLsbD j) ∧
  (∀ a : Word, finalize (finalize a) = a) ∧
  finalize 0xFFFFFFFF#32 = 0x00000000#32 ∧ finalize 0x00000000#32 = 0xFFFFFFFF#32 ∧
  finalize 0x278081F3#32 = 0xD87F7E0C#32

/-- 42_finalizer_hex.md R112: the sixteen characters and their codes, and the formula that describes the codes. -/
def Obligations.NibbleCharactersAndCodes : Prop :=
  [0#4, 1#4, 2#4, 3#4, 4#4, 5#4, 6#4, 7#4, 8#4, 9#4, 10#4, 11#4, 12#4, 13#4, 14#4, 15#4].map nibbleChar =
    ['0', '1', '2', '3', '4', '5', '6', '7', '8', '9', 'a', 'b', 'c', 'd', 'e', 'f'] ∧
  (∀ n : Nibble, charCode (nibbleChar n) = if n ≤ 9#4 then 0x30#8 + n.setWidth 8 else 0x57#8 + n.setWidth 8) ∧
  (∀ n : Nibble, nibbleCode n = charCode (nibbleChar n))

/-- 42_finalizer_hex.md R111: `HEX8` renders nibble `v[31-4k : 28-4k]` as character `k`, always gives eight characters of the
alphabet, and is a bijection onto the eight-character strings over it. -/
def Obligations.HexTextIsBijection : Prop :=
  (∀ (v : Word) (k : Nat), k < 8 → (hex8 v)[k]? = some (nibbleChar (v.extractLsb' (28 - 4 * k) 4))) ∧
  (∀ v : Word, (hex8 v).length = 8 ∧ ∀ t ∈ hex8 v, t ∈ hexAlphabet) ∧
  (∀ v w : Word, hex8 v = hex8 w → v = w) ∧
  (∀ text : List Char, text.length = 8 → (∀ t ∈ text, t ∈ hexAlphabet) → ∃ v : Word, hex8 v = text) ∧
  hex8 0x0000000A#32 = ['0', '0', '0', '0', '0', '0', '0', 'a']

/-- 42_finalizer_hex.md R113: byte `k` from the top of `HEXBUS(v)` is the code of character `k` of `HEX8(v)`. -/
def Obligations.HexBusSpellsText : Prop :=
  (∀ (v : Word) (k : Nat), k < 8 →
    ∃ t, (hex8 v)[k]? = some t ∧ (hexbus v).extractLsb' (56 - 8 * k) 8 = charCode t) ∧
  hexbus 0xD87F7E0C#32 = 0x6438376637653063#64

/-- From 10_state.md R13 and R24: in a state whose text is that of its checksum, each byte of `hex_q` is one of the sixteen
codes, and `crc_q` can be read back from it. -/
def Obligations.HexRegisterHoldsLegalCodes : Prop :=
  (∀ (s : State) (k : Nat), s.TextMatches → k < 8 → isHexCode (s.hex_q.extractLsb' (56 - 8 * k) 8) = true) ∧
  (∀ s t : State, s.TextMatches → t.TextMatches → s.hex_q = t.hex_q → s.crc_q = t.crc_q)

/-! ### Messages -/

/-- 41_fold_datapath.md R96, R95: from an armed accumulator, BYTEs and NOPs leave `ACC_AFTER` of the bytes in time order and
change nothing else; the recursion that defines `ACC_AFTER`; the order matters. -/
def Obligations.ByteSequenceFoldsInOrder : Prop :=
  (∀ (s : State) (es : List Edge), s.acc = 0xFFFFFFFF#32 → (∀ e ∈ es, e.isBody = true) →
    s.runOver es = .next { s with acc := accAfter (bytesOf es) }) ∧
  accAfter [] = 0xFFFFFFFF#32 ∧
  (∀ (bs : List Byte) (b : Byte), accAfter (bs ++ [b]) = fold (accAfter bs) b) ∧
  (∀ es fs : List Edge, bytesOf (es ++ fs) = bytesOf es ++ bytesOf fs) ∧
  checksum [0x61#8, 0x62#8] = ['9', 'e', '8', '3', '4', '8', '6', 'd'] ∧
  checksum [0x62#8, 0x61#8] = ['2', 'c', 'a', '7', '4', 'a', '1', '4']

/-- 42_finalizer_hex.md R116: from any state, INIT, then the bytes of a message with NOPs anywhere among them, then FINAL leave
the message's checksum and its text; from an armed accumulator, so directly after a reset or a FINAL with only NOPs since, the
INIT may be left out. -/
def Obligations.MessageYieldsItsChecksum : Prop :=
  ∀ (s : State) (es : List Edge) (d d' : Byte), (∀ e ∈ es, e.isBody = true) →
    s.runOver (Edge.command (.init d) :: (es ++ [Edge.command (.final d')])) =
      .next { s with acc := 0xFFFFFFFF#32, crc_q := crc32 (bytesOf es), hex_q := hexbus (crc32 (bytesOf es)),
                     out_valid := true } ∧
    (s.acc = 0xFFFFFFFF#32 →
      s.runOver (es ++ [Edge.command (.final d')]) =
        .next { s with crc_q := crc32 (bytesOf es), hex_q := hexbus (crc32 (bytesOf es)), out_valid := true }) ∧
    (∀ e : Edge, e.rst = true ∨ e.isFinal = true →
      s.runOver (e :: (es ++ [Edge.command (.final d')])) =
        .next { s with acc := 0xFFFFFFFF#32, crc_q := crc32 (bytesOf es), hex_q := hexbus (crc32 (bytesOf es)),
                       out_valid := true }) ∧
    (∀ k : Nat, k < 8 →
      ∃ t, (checksum (bytesOf es))[k]? = some t ∧
        (hexbus (crc32 (bytesOf es))).extractLsb' (56 - 8 * k) 8 = charCode t)

/-- 42_finalizer_hex.md R117: two runs with the same bytes end with the same `crc_q` and `hex_q`, whatever state each starts
from and whatever NOPs are among the bytes. -/
def Obligations.ChecksumIsDeterministic : Prop :=
  ∀ (s s' : State) (es es' : List Edge) (d d' f f' : Byte),
    (∀ e ∈ es, e.isBody = true) → (∀ e ∈ es', e.isBody = true) → bytesOf es = bytesOf es' →
    ∃ t t' : State,
      s.runOver (Edge.command (.init d) :: (es ++ [Edge.command (.final f)])) = .next t ∧
      s'.runOver (Edge.command (.init d') :: (es' ++ [Edge.command (.final f')])) = .next t' ∧
      t.crc_q = t'.crc_q ∧ t.hex_q = t'.hex_q

/-- 00_scope.md R6: after a FINAL, an INIT or a reset the accumulator holds `ACC_INIT` whatever it held, so that two blocks with
different pasts have the same accumulator from there on, and the same outputs from the next FINAL or reset on. -/
def Obligations.EarlierBytesNeverInfluence : Prop :=
  (∀ (s : State) (e : Edge), e.isRearm = true → ∃ t, s.runOver [e] = .next t ∧ t.acc = 0xFFFFFFFF#32) ∧
  (∀ (s s' : State) (e : Edge) (es : List Edge), e.isRearm = true →
    ∃ t t' : State, s.runOver (e :: es) = .next t ∧ s'.runOver (e :: es) = .next t' ∧ t.acc = t'.acc ∧
      ((∃ f ∈ es, f.rst = true ∨ f.isFinal = true) → t.outputs = t'.outputs))

/-- 41_fold_datapath.md R97: the empty message is a message, with result `0x00000000` and text `00000000`: INIT then FINAL from
any state, and FINAL directly after a reset or a FINAL. -/
def Obligations.EmptyMessageIsProcessed : Prop :=
  accAfter [] = 0xFFFFFFFF#32 ∧ crc32 [] = 0x00000000#32 ∧ checksum [] = ['0', '0', '0', '0', '0', '0', '0', '0'] ∧
  (∀ (s : State) (e : Edge) (f : Byte),
    (∃ d, e = Edge.command (.init d)) ∨ e.rst = true ∨ e.isFinal = true →
    s.runOver [e, Edge.command (.final f)] =
      .next { s with acc := 0xFFFFFFFF#32, crc_q := 0x00000000#32, hex_q := 0x3030303030303030#64, out_valid := true })

/-- 42_finalizer_hex.md R121: the golden values. The byte values of the texts are the spec's own general knowledge (93 G2). -/
def Obligations.GoldenChecksums : Prop :=
  checksum [0x54#8, 0x68#8, 0x65#8, 0x20#8, 0x71#8, 0x75#8, 0x69#8, 0x63#8, 0x6B#8, 0x20#8, 0x62#8, 0x72#8, 0x6F#8, 0x77#8,
      0x6E#8, 0x20#8, 0x66#8, 0x6F#8, 0x78#8, 0x20#8, 0x6A#8, 0x75#8, 0x6D#8, 0x70#8, 0x73#8, 0x20#8, 0x6F#8, 0x76#8, 0x65#8,
      0x72#8, 0x20#8, 0x74#8, 0x68#8, 0x65#8, 0x20#8, 0x6C#8, 0x61#8, 0x7A#8, 0x79#8, 0x20#8, 0x64#8, 0x6F#8, 0x67#8] =
    ['4', '1', '4', 'f', 'a', '3', '3', '9'] ∧
  checksum [] = ['0', '0', '0', '0', '0', '0', '0', '0'] ∧
  checksum [0x74#8, 0x65#8, 0x73#8, 0x74#8] = ['d', '8', '7', 'f', '7', 'e', '0', 'c'] ∧
  checksum [0x73#8, 0x69#8, 0x6D#8, 0x70#8, 0x6C#8, 0x65#8] = ['c', '1', '7', 'b', '3', 'd', '0', '2'] ∧
  checksum [0x62#8, 0x6C#8, 0x61#8, 0x68#8] = ['c', 'e', '2', '9', '6', '1', '5', 'c']

/-- From 41_fold_datapath.md R96 and 40_table_rom.md R78: messages that differ in exactly one byte have different checksums. -/
def Obligations.OneChangedByteChangesChecksum : Prop :=
  ∀ (before after : List Byte) (b b' : Byte), b ≠ b' → crc32 (before ++ b :: after) ≠ crc32 (before ++ b' :: after)

/-- From 10_state.md R11: every accumulator value is reached, from any state, by INIT and four BYTEs. -/
def Obligations.EveryAccumulatorValueIsReached : Prop :=
  ∀ v : Word, ∃ b₁ b₂ b₃ b₄ : Byte, ∀ (s : State) (d : Byte),
    s.runOver [Edge.command (.init d), Edge.command (.byte b₁), Edge.command (.byte b₂), Edge.command (.byte b₃),
      Edge.command (.byte b₄)] = .next { s with acc := v }

/-- 93_implementation_defined.md G4 (the spec's own general knowledge, shown there for one message): folding a message and then
its checksum, least significant byte first, leaves `0xDEBB20E3`, for every message. -/
def Obligations.AppendedChecksumLeavesResidue : Prop :=
  ∀ bs : List Byte,
    accAfter (bs ++ [(crc32 bs).extractLsb' 0 8, (crc32 bs).extractLsb' 8 8, (crc32 bs).extractLsb' 16 8,
      (crc32 bs).extractLsb' 24 8]) = 0xDEBB20E3#32

/-! ### Invariants and isolation -/

/-- 10_state.md R24, with R12 and R14: every step keeps the text that of the checksum, and `crc_q` at its reset value while the
flag is clear; so the text matches in every state that any input reaches from reset. -/
def Obligations.InvariantKeptByEveryStep : Prop :=
  (∀ s t : State, s.Inv → step s = .next t → t.Inv) ∧
  (∀ s t : State, s.TextMatches → step s = .next t → t.TextMatches) ∧
  (∀ (es : List Edge) (k : Nat) (t : State), Host.Core.run Sys2Proof.core k (State.reset.drive es) = .next t →
    t.hex_q = hexbus t.crc_q)

/-- 10_state.md R24: the invariant holds at reset: `HEXBUS(0x00000000) = 0x3030303030303030`. -/
def Obligations.InvariantAtReset : Prop :=
  State.reset.Inv ∧ hexbus 0x00000000#32 = 0x3030303030303030#64

/-- 10_state.md R14: the flag is 0 after reset, FINAL writes 1, nothing but reset writes 0, it is 1 exactly when a FINAL has been
performed since the last reset, and no command reads it. -/
def Obligations.FlagIsLevelSetByFinal : Prop :=
  (∀ (s : State) (cmd : CmdWord), ∃ t, s.runOver [{ rst := true, cmd := cmd }] = .next t ∧ t.out_valid = false) ∧
  (∀ (s : State) (d : Byte), ∃ t, exec (.final d) s = .next t ∧ t.out_valid = true) ∧
  (∀ s t : State, step s = .next t → s.out_valid = true → t.out_valid = false →
    ∃ e later, s.pins = e :: later ∧ e.rst = true) ∧
  (∀ (s t : State) (es : List Edge), s.out_valid = false → s.runOver es = .next t →
    (t.out_valid = true ↔ ∃ before f after, es = before ++ f :: after ∧ f.isFinal = true ∧ ∀ e ∈ after, e.rst = false)) ∧
  (∀ (i : Instr) (s t : State) (v : Bool), exec i s = .next t →
    ∃ v', exec i { s with out_valid := v } = .next { t with out_valid := v' })

/-- 70_reset_and_hazards.md R159: the outputs carry the result of a FINAL from its edge until the next FINAL or reset; BYTE,
INIT and NOP do not disturb them. -/
def Obligations.ResultHeldUntilNextFinalOrReset : Prop :=
  ∀ (s : State) (es : List Edge), (∀ e ∈ es, e.rst = false ∧ e.isFinal = false) →
    (∃ t, s.runOver es = .next t ∧ t.outputs = s.outputs) ∧
    (∀ d : Byte, ∃ t, s.runOver (Edge.command (.final d) :: es) = .next t ∧
      t.outputs = { crc_q := ~~~s.acc, hex_q := hexbus (~~~s.acc), out_valid := true })

/-- From 10_state.md section 6: each output is its register; without an edge no output changes (that an empty `pins` is no edge
is the model's choice, log entry 1); the value a FINAL computes is on the ports
until the next FINAL or reset, and the accumulator is not observable except through FINAL: two blocks with
the same outputs and any accumulators keep the same outputs under any edges without a FINAL. -/
def Obligations.AccumulatorHiddenExceptThroughFinal : Prop :=
  (∀ s : State, s.outputs = { crc_q := s.crc_q, hex_q := s.hex_q, out_valid := s.out_valid }) ∧
  (∀ s : State, s.pins = [] → ∃ t, step s = .next t ∧ t.outputs = s.outputs) ∧
  (∀ (s : State) (d : Byte) (es : List Edge), (∀ e ∈ es, e.rst = false ∧ e.isFinal = false) →
    ∃ t, s.runOver (Edge.command (.final d) :: es) = .next t ∧
      t.outputs = { crc_q := ~~~s.acc, hex_q := hexbus (~~~s.acc), out_valid := true }) ∧
  (∀ (s s' : State) (es : List Edge), s.outputs = s'.outputs → (∀ e ∈ es, e.isFinal = false) →
    ∃ t t' : State, s.runOver es = .next t ∧ s'.runOver es = .next t' ∧ t.outputs = t'.outputs)

/-- What no command changes: the input still to come; and all but the accumulator, for the commands that are not FINAL. -/
def Obligations.CommandsChangeOnlyTheirRegisters : Prop :=
  ∀ (i : Instr) (s t : State), exec i s = .next t →
    t.pins = s.pins ∧
    (i.opcode ≠ 0b11#2 → t.crc_q = s.crc_q ∧ t.hex_q = s.hex_q ∧ t.out_valid = s.out_valid) ∧
    (i.opcode = 0b00#2 → t.acc = s.acc) ∧
    (i.opcode = 0b01#2 ∨ i.opcode = 0b11#2 → t.acc = 0xFFFFFFFF#32)

/-! ### The whole block -/

/-- 40_table_rom.md R76, 41_fold_datapath.md R99, 42_finalizer_hex.md R119, R120: the four sub-blocks, wired as their rules say,
do at every edge what the machine's step does. -/
def Obligations.SubBlocksImplementTheStep : Prop :=
  ∀ (s : State) (e : Edge), s.runOver [e] = .next (Blocks.coreEdge e s)

/-- From 60_exceptions.md R141, R142 and 10_state.md R11 to R14: whatever the host drives, the registers are those of the bytes
folded since the last re-arm and of the last message finalised since reset. -/
def Obligations.RegistersRepresentMessages : Prop :=
  Exchange.reset.Represents State.reset ∧
  ∀ (m : Exchange) (s : State) (es : List Edge), m.Represents s →
    ∃ t, s.runOver es = .next t ∧ (es.foldl Exchange.edge m).Represents t ∧ t.pins = s.pins

/-- From 60_exceptions.md section 6: under any interleaving, each copy ends where it ends alone after as many steps of its own;
so two schedules that give each copy the same number of steps end alike. A schedule is any list of places, and a place that
holds no copy steps nothing, which is the model's choice (log entry 13). -/
def Obligations.CopiesDoNotInteract : Prop :=
  (∀ (order : List Nat) (all : Copies),
    ∃ done, Copies.run order all = .next done ∧ done.length = all.length ∧
      ∀ (k : Nat) (s : State), all[k]? = some s →
        ∃ t, Host.Core.run Sys2Proof.core (order.count k) s = .next t ∧ done[k]? = some t) ∧
  (∀ (order order' : List Nat) (all : Copies), order.Perm order' → Copies.run order all = Copies.run order' all)

/-! ### The assembler text -/

/-- From 30_encoding.md section 7: the words of the four commands, the error outside 0 to 255, comments, and the disassembler,
whose text for any word assembles to the word's canonical form. The layout of the text (two upper-case digits, the blank before
the note, quotes that make a `;` text) is the model's choice (log entry 14), and that the disassembly assembles is an inference.
A `;` after an even number of quotes begins a comment, or stands in one; between the quotes of ASCII it is text. -/
def Obligations.AssemblerTextOfCommands : Prop :=
  assembleText ['N', 'O', 'P'] = .ok [0x000#10] ∧ assembleText ['I', 'N', 'I', 'T'] = .ok [0x100#10] ∧
  assembleText ['F', 'I', 'N', 'A', 'L'] = .ok [0x300#10] ∧
  (∀ b : Byte, assembleText (['B', 'Y', 'T', 'E', ' '] ++ writeByte b) = .ok [0x200#10 + b.setWidth 10] ∧
    assembleText (['B', 'Y', 'T', 'E', ' '] ++ Nat.toDigits 10 b.toNat) = .ok [0x200#10 + b.setWidth 10]) ∧
  (∀ n : Nat, 255 < n → (AsmLine.byte n).assemble = .error .operandOutOfRange) ∧
  (∀ t note : List Char, t.count quoteChar % 2 = 0 → parseLine (t ++ ';' :: note) = parseLine t) ∧
  (∀ text : List Char, quoteChar ∉ text →
    parseLine (['A', 'S', 'C', 'I', 'I', ' ', quoteChar] ++ text ++ [quoteChar]) = .ok (some (.ascii text))) ∧
  (∀ w : CmdWord, assembleText (disassemble w) =
    .ok [match decode w with | .byte _ => w | .nop _ => 0x000#10 | .init _ => 0x100#10 | .final _ => 0x300#10]) ∧
  (∀ w : CmdWord, (decode w).canonical = false →
    disassemble w = (decode w).mnemonic ++ [' ', ';', ' ', 'd', 'a', 't', 'a', '='] ++ writeByte (dataField w))

/-- 30_encoding.md R57: the expansions of the pseudo-instructions, and CHECKSUM driven from any state computes the checksum of
its bytes. -/
def Obligations.PseudoInstructionsExpand : Prop :=
  (∀ bs : List Byte,
    (AsmLine.bytes (bs.map BitVec.toNat)).assemble = .ok (bs.map (fun b => 0x200#10 + b.setWidth 10)) ∧
    (AsmLine.checksum (bs.map BitVec.toNat)).assemble =
      .ok (0x100#10 :: (bs.map (fun b => 0x200#10 + b.setWidth 10) ++ [0x300#10]))) ∧
  (∀ n : Nat, (AsmLine.idle n).assemble = .ok (List.replicate n 0x000#10)) ∧
  (∀ text : List Char, (∀ c ∈ text, 0x20 ≤ c.toNat ∧ c.toNat ≤ 0x7E) →
    (AsmLine.ascii text).assemble = .ok (text.map (fun c => 0x200#10 + BitVec.ofNat 10 c.toNat))) ∧
  (∀ (s : State) (bs : List Byte) (ws : List CmdWord),
    (AsmLine.checksum (bs.map BitVec.toNat)).assemble = .ok ws →
    s.runOver (ws.map (fun w => { rst := false, cmd := w })) =
      .next { s with acc := 0xFFFFFFFF#32, crc_q := crc32 bs, hex_q := hexbus (crc32 bs), out_valid := true })
end

