-- ==== Sys2Proof/Laws/Decode.lean ====
section
/-! SUPPORT. The encoder field by field, and the decoder by the two opcode bits. -/

namespace Sys2Proof

@[simp] theorem opcode_nop (d : Byte) : (Instr.nop d).opcode = 0b00#2 := rfl
@[simp] theorem opcode_init (d : Byte) : (Instr.init d).opcode = 0b01#2 := rfl
@[simp] theorem opcode_byte (b : Byte) : (Instr.byte b).opcode = 0b10#2 := rfl
@[simp] theorem opcode_final (d : Byte) : (Instr.final d).opcode = 0b11#2 := rfl

@[simp] theorem data_nop (d : Byte) : (Instr.nop d).data = d := rfl
@[simp] theorem data_init (d : Byte) : (Instr.init d).data = d := rfl
@[simp] theorem data_byte (b : Byte) : (Instr.byte b).data = b := rfl
@[simp] theorem data_final (d : Byte) : (Instr.final d).data = d := rfl

/-- The field `data` of the word of a command is the command's (30_encoding.md R51). -/
@[simp] theorem dataField_encode (i : Instr) : dataField (encode i) = i.data := by
  simp only [dataField, encode]
  ext j hj
  rw [BitVec.getElem_extractLsb', BitVec.getLsbD_append]
  simp [hj, BitVec.getLsbD_eq_getElem]

/-- The field `op` of the word of a command is the command's (30_encoding.md R51). -/
@[simp] theorem opField_encode (i : Instr) : opField (encode i) = i.opcode := by
  simp only [opField, encode]
  ext j hj
  rw [BitVec.getElem_extractLsb', BitVec.getLsbD_append]
  simp [hj, BitVec.getLsbD_eq_getElem]

/-- Masking the word of a command keeps its opcode and clears its `data` (30_encoding.md R52). -/
theorem encode_masked (i : Instr) : encode i &&& 0x300#10 = i.opcode ++ 0#8 := by
  have ones : i.opcode &&& 0b11#2 = i.opcode := by
    rw [show 0b11#2 = BitVec.allOnes 2 from rfl, BitVec.and_allOnes]
  rw [encode, show 0x300#10 = 0b11#2 ++ 0#8 from rfl, BitVec.and_append, ones, BitVec.and_zero]

end Sys2Proof
end

