-- ==== Sys2Proof/Laws/Ops.lean ====
section
/-! SUPPORT. The shared operations: each says once all it can do. -/

namespace Sys2Proof.Machine

/-- Sampling takes the first edge, and only from a host that drives one (30_encoding.md R50). -/
theorem sampleEdge_eq_some {s t : State} {e : Edge} :
    s.sampleEdge = some (e, t) ↔ ∃ later, s.pins = e :: later ∧ t = { s with pins := later } := by
  cases hp : s.pins with
  | nil => simp [State.sampleEdge, hp]
  | cons f later =>
    simp only [State.sampleEdge, hp, Option.some.injEq, Prod.mk.injEq, List.cons.injEq]
    constructor
    · rintro ⟨rfl, rfl⟩
      exact ⟨later, ⟨rfl, rfl⟩, rfl⟩
    · rintro ⟨_, ⟨rfl, rfl⟩, rfl⟩
      exact ⟨rfl, rfl⟩

/-- The ROM index is the low byte of the accumulator XOR the byte (41_fold_datapath.md R90). -/
theorem romIndex_eq_xor (a : Word) (b : Byte) : romIndex a b = a.extractLsb' 0 8 ^^^ b := by
  have mask : ∀ k : Fin 8, (255#8)[k.val] = true := by decide
  ext j hj
  simp [romIndex, zext32, mask ⟨j, hj⟩]

/-- The finalizer inverts each bit (42_finalizer_hex.md R110). -/
theorem finalize_bit (a : Word) (j : Nat) (h : j < 32) : (finalize a).getLsbD j = !a.getLsbD j := by
  simp [finalize, h]

end Sys2Proof.Machine
end

