-- ==== Sys2Proof/Laws/PerInstr.lean ====
section
/-! SUPPORT. What is proved for every command by one lemma per constructor. -/

namespace Sys2Proof.Laws.RowCovers

/-- The first row of the opcode map that covers the word of a command bears the command's mnemonic (30_encoding.md R52). -/
def Statement (i : Instr) : Prop :=
  ∃ r, opcodeTable.find? (fun r => r.covers (encode i)) = some r ∧ r.mnemonic = i.mnemonic

theorem nop (data : Byte) : Statement (.nop data) := by
  simp [Statement, opcodeTable, OpcodeRow.covers, encode_masked, Instr.mnemonic]

theorem init (data : Byte) : Statement (.init data) := by
  simp [Statement, opcodeTable, OpcodeRow.covers, encode_masked, Instr.mnemonic]

theorem byte (b : Byte) : Statement (.byte b) := by
  simp [Statement, opcodeTable, OpcodeRow.covers, encode_masked, Instr.mnemonic]

theorem final (data : Byte) : Statement (.final data) := by
  simp [Statement, opcodeTable, OpcodeRow.covers, encode_masked, Instr.mnemonic]

end Sys2Proof.Laws.RowCovers
end

