-- ==== Sys2Proof/Laws/State.lean ====
section
/-! SUPPORT. What each update of the state leaves in each field, and the reset state field by field: one lemma each, so that no
proof unfolds a record update. -/

namespace Sys2Proof.Machine

variable (s : State)

/-! ### `setAcc` and `rearm` -/

@[simp] theorem setAcc_acc (a : Word) : (s.setAcc a).acc = a := rfl
@[simp] theorem setAcc_crc_q (a : Word) : (s.setAcc a).crc_q = s.crc_q := rfl
@[simp] theorem setAcc_hex_q (a : Word) : (s.setAcc a).hex_q = s.hex_q := rfl
@[simp] theorem setAcc_out_valid (a : Word) : (s.setAcc a).out_valid = s.out_valid := rfl
@[simp] theorem setAcc_pins (a : Word) : (s.setAcc a).pins = s.pins := rfl

@[simp] theorem rearm_acc : s.rearm.acc = Config.accInit := rfl
@[simp] theorem rearm_crc_q : s.rearm.crc_q = s.crc_q := rfl
@[simp] theorem rearm_hex_q : s.rearm.hex_q = s.hex_q := rfl
@[simp] theorem rearm_out_valid : s.rearm.out_valid = s.out_valid := rfl
@[simp] theorem rearm_pins : s.rearm.pins = s.pins := rfl

/-! ### `setResult` -/

@[simp] theorem setResult_acc (r : Word) : (s.setResult r).acc = s.acc := rfl
@[simp] theorem setResult_crc_q (r : Word) : (s.setResult r).crc_q = r := rfl
@[simp] theorem setResult_hex_q (r : Word) : (s.setResult r).hex_q = hexbus r := rfl
@[simp] theorem setResult_out_valid (r : Word) : (s.setResult r).out_valid = s.out_valid := rfl
@[simp] theorem setResult_pins (r : Word) : (s.setResult r).pins = s.pins := rfl

/-! ### `setValid` and `clearValid` -/

@[simp] theorem setValid_acc : s.setValid.acc = s.acc := rfl
@[simp] theorem setValid_crc_q : s.setValid.crc_q = s.crc_q := rfl
@[simp] theorem setValid_hex_q : s.setValid.hex_q = s.hex_q := rfl
@[simp] theorem setValid_out_valid : s.setValid.out_valid = true := rfl
@[simp] theorem setValid_pins : s.setValid.pins = s.pins := rfl

@[simp] theorem clearValid_acc : s.clearValid.acc = s.acc := rfl
@[simp] theorem clearValid_crc_q : s.clearValid.crc_q = s.crc_q := rfl
@[simp] theorem clearValid_hex_q : s.clearValid.hex_q = s.hex_q := rfl
@[simp] theorem clearValid_out_valid : s.clearValid.out_valid = Config.resetValid := rfl
@[simp] theorem clearValid_pins : s.clearValid.pins = s.pins := rfl

/-! ### `resetEdge` -/

@[simp] theorem resetEdge_acc : s.resetEdge.acc = Config.accInit := rfl
@[simp] theorem resetEdge_crc_q : s.resetEdge.crc_q = Config.resetCrc := rfl
@[simp] theorem resetEdge_hex_q : s.resetEdge.hex_q = Config.resetHex := rfl
@[simp] theorem resetEdge_out_valid : s.resetEdge.out_valid = Config.resetValid := rfl
@[simp] theorem resetEdge_pins : s.resetEdge.pins = s.pins := rfl

/-! ### `presentCommand` and `drive` -/

@[simp] theorem presentCommand_acc (w : CmdWord) : (s.presentCommand w).acc = s.acc := rfl
@[simp] theorem presentCommand_crc_q (w : CmdWord) : (s.presentCommand w).crc_q = s.crc_q := rfl
@[simp] theorem presentCommand_hex_q (w : CmdWord) : (s.presentCommand w).hex_q = s.hex_q := rfl
@[simp] theorem presentCommand_out_valid (w : CmdWord) : (s.presentCommand w).out_valid = s.out_valid := rfl
@[simp] theorem presentCommand_pins (w : CmdWord) :
    (s.presentCommand w).pins = { rst := false, cmd := w } :: s.pins.tail := rfl

@[simp] theorem drive_acc (es : List Edge) : (s.drive es).acc = s.acc := rfl
@[simp] theorem drive_crc_q (es : List Edge) : (s.drive es).crc_q = s.crc_q := rfl
@[simp] theorem drive_hex_q (es : List Edge) : (s.drive es).hex_q = s.hex_q := rfl
@[simp] theorem drive_out_valid (es : List Edge) : (s.drive es).out_valid = s.out_valid := rfl
@[simp] theorem drive_pins (es : List Edge) : (s.drive es).pins = es ++ s.pins := rfl

/-! ### The reset state -/

@[simp] theorem reset_acc : State.reset.acc = Config.accInit := rfl
@[simp] theorem reset_crc_q : State.reset.crc_q = Config.resetCrc := rfl
@[simp] theorem reset_hex_q : State.reset.hex_q = Config.resetHex := rfl
@[simp] theorem reset_out_valid : State.reset.out_valid = Config.resetValid := rfl
@[simp] theorem reset_pins : State.reset.pins = [] := rfl

/-- One reset edge takes the state before the first reset to the reset state, whatever its registers hold (10_state.md R23). -/
theorem preReset_resetEdge : (State.preReset []).resetEdge = State.reset := rfl

end Sys2Proof.Machine
end

