-- ==== Sys2Proof/Laws/Step.lean ====
section
/-! SUPPORT. What each command's meaning is, what a step can do, and how a run goes edge by edge. -/

namespace Sys2Proof.Machine

@[simp] theorem exec_nop (d : Byte) (s : State) : exec (.nop d) s = .next s := rfl
@[simp] theorem exec_init (d : Byte) (s : State) : exec (.init d) s = .next s.rearm := rfl
@[simp] theorem exec_byte (b : Byte) (s : State) : exec (.byte b) s = .next (s.setAcc (foldByte s.acc b)) := rfl
@[simp] theorem exec_final (d : Byte) (s : State) :
    exec (.final d) s = .next ((s.setResult (finalize s.acc)).setValid.rearm) := rfl

/-- With no edge to come, nothing changes (60_exceptions.md R140, log entry 1). -/
theorem step_noEdge (s : State) (h : s.pins = []) : step s = .next s := by
  simp [step, State.sampleEdge, h]

/-- The step on a state whose host drives `e` next (30_encoding.md R59). -/
@[simp] theorem step_drive_cons (s : State) (e : Edge) (es : List Edge) :
    step (s.drive (e :: es)) = if e.rst then .next (s.drive es).resetEdge else exec (decode e.cmd) (s.drive es) := rfl

/-- Everything a step that answers a next state can have done: nothing, for want of an edge; a reset; or one command
(30_encoding.md R59). -/
theorem step_cases {s t : State} (h : step s = .next t) :
    (s.pins = [] ∧ t = s) ∨
    ∃ e later, s.pins = e :: later ∧
      ((e.rst = true ∧ t = ({ s with pins := later } : State).resetEdge) ∨
       (e.rst = false ∧ exec (decode e.cmd) { s with pins := later } = .next t)) := by
  cases hp : s.pins with
  | nil =>
    rw [step_noEdge s hp] at h
    exact .inl ⟨rfl, (Host.Outcome.next.inj h).symm⟩
  | cons e later =>
    refine .inr ⟨e, later, rfl, ?_⟩
    cases hr : e.rst with
    | true =>
      simp only [step, State.sampleEdge, hp, hr, if_true] at h
      exact .inl ⟨rfl, (Host.Outcome.next.inj h).symm⟩
    | false =>
      simp only [step, State.sampleEdge, hp, hr] at h
      exact .inr ⟨rfl, h⟩

/-- Everything a command that answers a next state can have done, one case each (30_encoding.md R59). -/
theorem exec_cases {i : Instr} {s t : State} (h : exec i s = .next t) :
    (∃ d, i = .nop d ∧ t = s) ∨
    (∃ d, i = .init d ∧ t = s.rearm) ∨
    (∃ b, i = .byte b ∧ t = s.setAcc (foldByte s.acc b)) ∨
    (∃ d, i = .final d ∧ t = (s.setResult (finalize s.acc)).setValid.rearm) := by
  cases i with
  | nop d => exact .inl ⟨d, rfl, (Host.Outcome.next.inj h).symm⟩
  | init d => exact .inr (.inl ⟨d, rfl, (Host.Outcome.next.inj h).symm⟩)
  | byte b => exact .inr (.inr (.inl ⟨b, rfl, (Host.Outcome.next.inj h).symm⟩))
  | final d => exact .inr (.inr (.inr ⟨d, rfl, (Host.Outcome.next.inj h).symm⟩))

/-- A run of one more step is the step, then the rest of the run. -/
theorem run_succ_of_step {s t : State} (k : Nat) (h : step s = .next t) :
    Host.Core.run Sys2Proof.core (k + 1) s = Host.Core.run Sys2Proof.core k t := by
  have hcore : Sys2Proof.core.step s = .next t := h
  simp only [Host.Core.run, hcore]

/-- A run whose first step is refused is refused. -/
theorem run_succ_of_refused {s : State} (k : Nat) {r : Refusal} (h : step s = .refused r) :
    Host.Core.run Sys2Proof.core (k + 1) s = .refused r := by
  have hcore : Sys2Proof.core.step s = .refused r := h
  simp only [Host.Core.run, hcore]

/-- A run of no step ends where it starts. -/
@[simp] theorem run_zero (s : State) : Host.Core.run Sys2Proof.core 0 s = .next s := rfl

/-- A run that reaches a state goes on from there. -/
theorem run_add {s t : State} (j k : Nat) (h : Host.Core.run Sys2Proof.core j s = .next t) :
    Host.Core.run Sys2Proof.core (j + k) s = Host.Core.run Sys2Proof.core k t := by
  induction j generalizing s with
  | zero =>
    rw [Nat.zero_add]
    exact congrArg _ (Host.Outcome.next.inj h)
  | succ j ih =>
    rw [Nat.add_right_comm]
    cases hs : step s with
    | next u =>
      rw [run_succ_of_step _ hs] at h ⊢
      exact ih h
    | fault r => exact nomatch r
    | refused r =>
      rw [run_succ_of_refused j hs] at h
      cases h

/-- Driving no edge changes nothing. -/
@[simp] theorem drive_nil (s : State) : s.drive [] = s := rfl

/-- Driving edges in two parts. -/
theorem drive_append (s : State) (es fs : List Edge) : s.drive (es ++ fs) = (s.drive fs).drive es := by
  simp [State.drive]

end Sys2Proof.Machine
end

