-- ==== Sys2Proof/Tests/Slice0.lean ====
section
/-! SUPPORT. Tests. The expected values are those of 95_test_vectors.md (the vector's id stands at each test) or are read off a
rule; none is an answer of the model. Then, for each statement with hypotheses, inputs that meet them. -/

namespace Sys2Proof.Tests

open Sys2Proof.Machine

/-! ### Well-formedness: a term that each check refuses -/

theorem test_nop_with_data_not_canonical : (Instr.nop 0xA5#8).canonical = false := by decide
theorem test_init_with_data_not_canonical : (Instr.init 0xFF#8).canonical = false := by decide
theorem test_final_with_data_not_canonical : (Instr.final 0xAB#8).canonical = false := by decide
theorem test_not_canonical_is_legal : (Instr.final 0xAB#8).wellFormed = true := by decide
theorem test_asm_byte_256_refused : (AsmLine.byte 256).wellFormed = false := by decide
theorem test_asm_bytes_256_refused : (AsmLine.bytes [0, 256]).wellFormed = false := by decide
theorem test_asm_checksum_256_refused : (AsmLine.checksum [256]).wellFormed = false := by decide
theorem test_asm_control_character_refused : (AsmLine.ascii ['a', Char.ofNat 0x1F]).wellFormed = false := by decide
theorem test_asm_eight_bit_character_refused : (AsmLine.ascii [Char.ofNat 0x7F]).wellFormed = false := by decide

/-! ### Decoding: words out of bits, `op` in bits 9 and 8 (30_encoding.md R51, R52) -/

theorem test_decode_nop : decode 0b0010100101#10 = .nop 0xA5#8 := by decide
theorem test_decode_init : decode 0b0100000000#10 = .init 0x00#8 := by decide
theorem test_decode_byte : decode 0b1001110100#10 = .byte 0x74#8 := by decide
theorem test_decode_final : decode 0b1110101011#10 = .final 0xAB#8 := by decide
theorem test_decode_too_wide : decodeTableWord 16 1024 = none := by decide
theorem test_decode_table_word : decodeTableWord 10 0x274 = some (.byte 0x74#8) := by decide

/-! ### The table ROM (95 section 2.1, 40_table_rom.md R72) -/

/-- `TSTEP(80000001) = ADB88320`. -/
theorem test_tstep_shift_in_zero_and_poly : tstep 0x80000001#32 = 0xADB88320#32 := by decide
/-- Row `7F`, last column. -/
theorem test_table_7F : table 0x7F#8 = 0xC0BA6CAD#32 := by decide
theorem test_rom_8B : romRead 0x8B#8 = 0x7A6A5AA8#32 := by decide
theorem test_rom_last : romRead 0xFF#8 = 0x2D02EF8D#32 := by decide
/-- "the XOR of all 256 entries is `0x00000000`". -/
theorem test_rom_xor_of_all : romContents.foldl (· ^^^ ·) 0#32 = 0x00000000#32 := by decide +kernel
/-- "the sum of all 256 entries modulo 2^32 is `0xFFFFFF80`". -/
theorem test_rom_sum_of_all : romContents.foldl (· + ·) 0#32 = 0xFFFFFF80#32 := by decide +kernel

/-! ### The fold, the finalizer and the text (95 sections 2.2 to 2.4) -/

/-- F6: zero fill under a set top bit. -/
theorem test_fold_F6 : foldByte 0x80000000#32 0x00#8 = 0x00800000#32 := by decide
/-- F8: the general case. -/
theorem test_fold_F8 : foldByte 0x12345678#32 0x9A#8 = 0x4E16B702#32 := by decide
theorem test_finalize_55555555 : finalize 0x55555555#32 = 0xAAAAAAAA#32 := by decide
/-- H7: lowercase, most significant nibble first. -/
theorem test_hex8_H7 : hex8 0x89ABCDEF#32 = ['8', '9', 'a', 'b', 'c', 'd', 'e', 'f'] := by decide
/-- H9: the most significant byte leads on the bus. -/
theorem test_hexbus_H9 : hexbus 0xFF000000#32 = 0x6666303030303030#64 := by decide

/-! ### Single commands (95 section 2.5) -/

/-- The next state of a step, for comparing. -/
def nextOf (o : Host.Outcome State Fault Refusal) : Option State :=
  match o with
  | .next t => some t
  | .fault _ => none
  | .refused _ => none

/-- The state before K1, K2, K3 and K6. -/
def midMessage : State := { State.reset with acc := 0x7A95A557#32 }

/-- The state before K4, K7, K8 and K11. -/
def olderResult : State :=
  { acc := 0x278081F3#32, crc_q := 0xCE29615C#32, hex_q := 0x6365323936313563#64, out_valid := true, pins := [] }

/-- The state before K13, K14 and K15, arbitrary as before the first reset. -/
def arbitrary : State :=
  { acc := 0x12345678#32, crc_q := 0xAAAAAAAA#32, hex_q := 0xDEADBEEFDEADBEEF#64, out_valid := true, pins := [] }

/-- One step with `rst` and `cmd` on the pins. -/
def edgeFrom (s : State) (rst : Bool) (cmd : CmdWord) : Option State := nextOf (step (s.drive [{ rst := rst, cmd := cmd }]))

/-- K2. -/
theorem test_step_K2 : edgeFrom midMessage false 0x0A5#10 = some midMessage := by decide
/-- K4. -/
theorem test_step_K4 : edgeFrom olderResult false 0x1FF#10 = some { olderResult with acc := 0xFFFFFFFF#32 } := by decide
/-- K5. -/
theorem test_step_K5 : edgeFrom State.reset false 0x274#10 = some midMessage := by decide
/-- K14. -/
theorem test_step_K14 : edgeFrom arbitrary false 0x29A#10 = some { arbitrary with acc := 0x4E16B702#32 } := by decide
/-- K8. -/
theorem test_step_K8 : edgeFrom olderResult false 0x3AB#10 =
    some { acc := 0xFFFFFFFF#32, crc_q := 0xD87F7E0C#32, hex_q := 0x6438376637653063#64, out_valid := true, pins := [] } := by
  decide
/-- K15. -/
theorem test_step_K15 : edgeFrom arbitrary false 0x300#10 =
    some { acc := 0xFFFFFFFF#32, crc_q := 0xEDCBA987#32, hex_q := 0x6564636261393837#64, out_valid := true, pins := [] } := by
  decide
/-- K11. -/
theorem test_step_K11_reset_beats_final : edgeFrom olderResult true 0x300#10 = some State.reset := by decide
/-- K13. -/
theorem test_step_K13_reset_from_arbitrary : edgeFrom arbitrary true 0x000#10 = some State.reset := by decide
/-- 30_encoding.md R59 on K5's word, as the host places it. -/
theorem test_withFetchWord_runs : nextOf (step (State.reset.withFetchWord 16 0x274)) = some midMessage := by decide

/-! ### Whole messages and text (95 sections 2.6, 3; 30_encoding.md R56, R57) -/

/-- V-BA: the order of the bytes matters. -/
theorem test_checksum_V_BA : checksum [0x62#8, 0x61#8] = ['2', 'c', 'a', '7', '4', 'a', '1', '4'] := by decide +kernel
/-- The command words of P5, from a text with decimal and hexadecimal operands and comments. -/
theorem test_assemble_bytes : assembleText
    ['I', 'N', 'I', 'T', newline, 'B', 'Y', 'T', 'E', ' ', '0', 'x', '9', 'A', ' ', ';', ' ', 'x', newline,
     'B', 'Y', 'T', 'E', 'S', ' ', '8', '5', ',', ' ', '0', 'x', '6', '1', newline, newline, 'F', 'I', 'N', 'A', 'L'] =
    .ok [0x100#10, 0x29A#10, 0x255#10, 0x261#10, 0x300#10] := by decide +kernel
/-- `ASCII` with a `;` between the quotes. -/
theorem test_assemble_ascii : assembleText ['A', 'S', 'C', 'I', 'I', ' ', quoteChar, 'a', ';', quoteChar] =
    .ok [0x261#10, 0x23B#10] := by decide +kernel
/-- A comment after a quoted text that itself holds a `;` (30_encoding.md R56). -/
theorem test_assemble_comment_after_quotes : assembleText
    ['A', 'S', 'C', 'I', 'I', ' ', quoteChar, ';', quoteChar, ' ', ';', ' ', quoteChar] = .ok [0x23B#10] := by decide +kernel
/-- "mnemonics are upper case". -/
theorem test_assemble_lower_case_refused : assembleText ['n', 'o', 'p'] = .error .unknownMnemonic := by decide +kernel
/-- An operand outside 0 to 255 is an assembly error. -/
theorem test_assemble_256_refused : assembleText ['B', 'Y', 'T', 'E', ' ', '2', '5', '6'] = .error .operandOutOfRange := by
  decide +kernel
/-- A word that is not canonical: its mnemonic followed by `; data=0xNN`. -/
theorem test_disassemble_3AB : disassemble 0x3AB#10 =
    ['F', 'I', 'N', 'A', 'L', ' ', ';', ' ', 'd', 'a', 't', 'a', '=', '0', 'x', 'A', 'B'] := by decide +kernel

/-! ### Inputs that meet the hypotheses of the statements -/

/-- A BYTE edge, a NOP edge and another BYTE edge. -/
def bodyEdges : List Edge := [Edge.command (.byte 0x74#8), Edge.command (.nop 0xA5#8), Edge.command (.byte 0x65#8)]

/-- Edges without reset and without FINAL. -/
def quietEdges : List Edge := [Edge.command (.byte 0x74#8), Edge.command (.init 0#8), Edge.command (.nop 0#8)]

/-- A reset edge. -/
def resetPins : Edge := { rst := true, cmd := 0x300#10 }

theorem witness_HeldResetRepeatsAndReleasesAtOnce :
    [resetPins, resetPins] ≠ [] ∧ ∀ e ∈ [resetPins, resetPins], e.rst = true := by decide

theorem witness_StepRunsDecodedCommand :
    (arbitrary.drive [{ rst := false, cmd := 0x274#10 }]).pins = { rst := false, cmd := 0x274#10 } :: [] ∧
    State.reset.pins = [] := by decide

theorem witness_OpcodeMapPartitionsWords :
    (0x000#10 &&& 0x300#10 = 0x000#10 ∧ 0x0FF#10 &&& 0x300#10 = 0x000#10) ∧
    (0x100#10 &&& 0x300#10 = 0x100#10 ∧ 0x1FF#10 &&& 0x300#10 = 0x100#10) ∧
    (0x200#10 &&& 0x300#10 = 0x200#10 ∧ 0x2FF#10 &&& 0x300#10 = 0x200#10) ∧
    (0x300#10 &&& 0x300#10 = 0x300#10 ∧ 0x3FF#10 &&& 0x300#10 = 0x300#10) := by decide

theorem witness_CommandWordIsOpAboveData : 0 < 2 ∧ 1 < 2 ∧ 0 < 8 ∧ 7 < 8 := by decide

theorem witness_NumbersBeyondTenBitsAreNoCommand : 1023 % 2 ^ 16 < 1024 ∧ 1024 ≤ 1024 % 2 ^ 16 := by decide

theorem witness_TableStepTestsLowBitBeforeShift :
    (0x80000001#32).getLsbD 0 = true ∧ (0x80000000#32).getLsbD 0 = false := by decide

theorem witness_TableIsLinearWithPermutedEnds : romRead 0x8B#8 = romRead (0x80#8 ^^^ 0x0B#8) ∧ romRead 0x00#8 = 0#32 := by
  decide

theorem witness_InitRearmsAccumulatorOnly :
    (resetPins.rst = true ∨ resetPins.isFinal = true) ∧
    ((Edge.command (.final 0#8)).rst = true ∨ (Edge.command (.final 0#8)).isFinal = true) ∧
    ({ arbitrary with acc := 0x7323E97C#32 } : State).acc = 0x7323E97C#32 := by decide

theorem witness_FoldIsInjective :
    fold 0x12345678#32 0x9A#8 = fold (0x12345600#32 ^^^ 0x78#32) 0x9A#8 ∧
    fold 0x12345678#32 0x9A#8 = fold 0x12345678#32 (0x90#8 ^^^ 0x0A#8) := by decide

theorem witness_FinalPublishesChecksumAndRearms :
    State.reset.acc = 0xFFFFFFFF#32 ∧ olderResult.acc = 0x278081F3#32 ∧
    (resetPins.rst = true ∨ resetPins.isFinal = true) ∧
    ((Edge.command (.final 0xAB#8)).rst = true ∨ (Edge.command (.final 0xAB#8)).isFinal = true) := by decide

theorem witness_FinalizerComplementsEveryBit : 0 < 32 ∧ 31 < 32 := by decide

theorem witness_HexTextIsBijection :
    0 < 8 ∧ 7 < 8 ∧ hex8 0x0000000A#32 = hex8 (0x00000008#32 ^^^ 0x2#32) ∧
    ['d', 'e', 'a', 'd', '0', '0', '0', 'f'].length = 8 ∧
    ∀ t ∈ ['d', 'e', 'a', 'd', '0', '0', '0', 'f'], t ∈ hexAlphabet :=
  ⟨by decide, by decide, by decide, by decide, by simp [hexAlphabet]⟩

theorem witness_HexBusSpellsText : 0 < 8 ∧ 7 < 8 := by decide

theorem witness_HexRegisterHoldsLegalCodes :
    State.reset.TextMatches ∧ ({ midMessage with pins := [resetPins] } : State).TextMatches ∧
    State.reset.hex_q = ({ midMessage with pins := [resetPins] } : State).hex_q ∧ 0 < 8 ∧ 7 < 8 := by
  unfold State.TextMatches
  decide

theorem witness_ByteSequenceFoldsInOrder :
    State.reset.acc = 0xFFFFFFFF#32 ∧ (∀ e ∈ bodyEdges, e.isBody = true) ∧ bytesOf bodyEdges = [0x74#8, 0x65#8] := by decide

theorem witness_MessageYieldsItsChecksum :
    (∀ e ∈ bodyEdges, e.isBody = true) ∧ State.reset.acc = 0xFFFFFFFF#32 ∧ 0 < 8 ∧ 7 < 8 ∧
    resetPins.rst = true ∧ (Edge.command (.final 0#8)).isFinal = true := by decide

theorem witness_ChecksumIsDeterministic :
    (∀ e ∈ bodyEdges, e.isBody = true) ∧
    (∀ e ∈ [Edge.command (.byte 0x74#8), Edge.command (.byte 0x65#8)], e.isBody = true) ∧
    bytesOf bodyEdges = bytesOf [Edge.command (.byte 0x74#8), Edge.command (.byte 0x65#8)] := by decide

theorem witness_EarlierBytesNeverInfluence :
    (Edge.command (.init 0#8)).isRearm = true ∧ resetPins.isRearm = true ∧ (Edge.command (.final 0#8)).isRearm = true ∧
    ∃ f ∈ bodyEdges ++ [Edge.command (.final 0#8)], f.rst = true ∨ f.isFinal = true := by decide

theorem witness_EmptyMessageIsProcessed :
    ((∃ d, Edge.command (.init 0x01#8) = Edge.command (.init d)) ∨ (Edge.command (.init 0x01#8)).rst = true ∨
      (Edge.command (.init 0x01#8)).isFinal = true) ∧
    resetPins.rst = true ∧ (Edge.command (.final 0#8)).isFinal = true :=
  ⟨.inl ⟨0x01#8, rfl⟩, rfl, by decide⟩

theorem witness_OneChangedByteChangesChecksum : 0x74#8 ≠ 0x75#8 := by decide

theorem witness_InvariantKeptByEveryStep :
    ∃ t : State, State.reset.Inv ∧ State.reset.TextMatches ∧ step (State.reset.drive bodyEdges) = .next t ∧
      Host.Core.run Sys2Proof.core 1 (State.reset.drive bodyEdges) = .next t := by
  have text : State.reset.TextMatches := by
    unfold State.TextMatches
    decide
  exact ⟨_, ⟨text, fun _ => rfl⟩, text, rfl, rfl⟩

theorem witness_FlagIsLevelSetByFinal :
    (∃ t, step (arbitrary.drive [resetPins]) = .next t ∧ (arbitrary.drive [resetPins]).out_valid = true ∧
      t.out_valid = false) ∧
    (∃ t, State.reset.out_valid = false ∧ State.reset.runOver bodyEdges = .next t) ∧
    ∃ t, exec (.final 0#8) arbitrary = .next t :=
  ⟨⟨_, rfl, rfl, rfl⟩, ⟨_, rfl, rfl⟩, ⟨_, rfl⟩⟩

theorem witness_ResultHeldUntilNextFinalOrReset : ∀ e ∈ quietEdges, e.rst = false ∧ e.isFinal = false := by decide

theorem witness_AccumulatorHiddenExceptThroughFinal :
    State.reset.outputs = midMessage.outputs ∧ State.reset.acc ≠ midMessage.acc ∧
    (∀ e ∈ resetPins :: quietEdges, e.isFinal = false) ∧ State.reset.pins = [] ∧
    ∀ e ∈ quietEdges, e.rst = false ∧ e.isFinal = false := by decide

theorem witness_CommandsChangeOnlyTheirRegisters :
    (∃ t, exec (.nop 0xA5#8) arbitrary = .next t) ∧ (Instr.nop 0xA5#8).opcode ≠ 0b11#2 ∧
    (Instr.nop 0xA5#8).opcode = 0b00#2 ∧ (∃ t, exec (.init 0#8) arbitrary = .next t) ∧
    ((Instr.init 0#8).opcode = 0b01#2 ∨ (Instr.init 0#8).opcode = 0b11#2) ∧
    (∃ t, exec (.final 0#8) arbitrary = .next t) ∧
    ((Instr.final 0#8).opcode = 0b01#2 ∨ (Instr.final 0#8).opcode = 0b11#2) :=
  ⟨⟨_, rfl⟩, by decide, by decide, ⟨_, rfl⟩, by decide, ⟨_, rfl⟩, by decide⟩

theorem witness_RegistersRepresentMessages :
    ({ current := [0x74#8], published := some [0x62#8, 0x6C#8, 0x61#8, 0x68#8] } : Exchange).Represents
      { olderResult with acc := 0x7A95A557#32 } := by
  unfold Exchange.Represents
  decide +kernel

theorem witness_CopiesDoNotInteract :
    [midMessage, olderResult][1]? = some olderResult ∧ [0, 1, 0, 1].Perm [1, 1, 0, 0] := by decide

theorem witness_AssemblerTextOfCommands :
    255 < 256 ∧ ['N', 'O', 'P', ' '].count quoteChar % 2 = 0 ∧
    ['A', 'S', 'C', 'I', 'I', ' ', quoteChar, 'a', ';', quoteChar, ' '].count quoteChar % 2 = 0 ∧
    quoteChar ∉ ['a', ';'] ∧ (decode 0x0A5#10).canonical = false :=
  ⟨by decide, by decide, by decide, by simp [quoteChar], by decide⟩

theorem witness_PseudoInstructionsExpand :
    (∀ c ∈ ['a', ' ', '~'], 0x20 ≤ c.toNat ∧ c.toNat ≤ 0x7E) ∧
    (AsmLine.checksum ([0x74#8, 0xFF#8].map BitVec.toNat)).assemble = .ok [0x100#10, 0x274#10, 0x2FF#10, 0x300#10] :=
  ⟨by simp, by decide⟩

end Sys2Proof.Tests
end

section
/-! PROOFS. The state after an edge and after a run, as functions: no step of this machine stops, so every run answers a state
(60_exceptions.md R130), and a statement about a run becomes one about a fold over its edges (30_encoding.md R59). -/

namespace Sys2Proof.Machine

/-- The state a command leaves. -/
def State.afterCommand (s : State) : Instr → State
  | .nop _ => s
  | .init _ => s.rearm
  | .byte b => s.setAcc (foldByte s.acc b)
  | .final _ => (s.setResult (finalize s.acc)).setValid.rearm

/-- The state an edge leaves: reset wins over the command (60_exceptions.md R132). -/
def State.afterEdge (s : State) (e : Edge) : State :=
  if e.rst then s.resetEdge else s.afterCommand (decode e.cmd)

/-! ### Commands -/

@[simp] theorem afterCommand_nop (s : State) (d : Byte) : s.afterCommand (.nop d) = s := rfl
@[simp] theorem afterCommand_init (s : State) (d : Byte) : s.afterCommand (.init d) = s.rearm := rfl
@[simp] theorem afterCommand_byte (s : State) (b : Byte) :
    s.afterCommand (.byte b) = s.setAcc (foldByte s.acc b) := rfl
@[simp] theorem afterCommand_final (s : State) (d : Byte) :
    s.afterCommand (.final d) = (s.setResult (finalize s.acc)).setValid.rearm := rfl

/-- Every command answers a next state (60_exceptions.md R130). -/
theorem exec_eq_afterCommand (i : Instr) (s : State) : exec i s = .next (s.afterCommand i) := by
  cases i <;> rfl

/-- A command does not see what the host is yet to drive. -/
theorem afterCommand_drive (s : State) (es : List Edge) (i : Instr) :
    (s.drive es).afterCommand i = (s.afterCommand i).drive es := by
  cases i <;> rfl

/-! ### Edges -/

theorem afterEdge_of_rst (s : State) {e : Edge} (h : e.rst = true) : s.afterEdge e = s.resetEdge := by
  simp [State.afterEdge, h]

theorem afterEdge_of_command (s : State) {e : Edge} (h : e.rst = false) :
    s.afterEdge e = s.afterCommand (decode e.cmd) := by
  simp [State.afterEdge, h]

/-- An edge does not see what the host is to drive after it. -/
theorem afterEdge_drive (s : State) (es : List Edge) (e : Edge) :
    (s.drive es).afterEdge e = (s.afterEdge e).drive es := by
  cases hr : e.rst with
  | true => simp only [afterEdge_of_rst _ hr]; rfl
  | false => simp only [afterEdge_of_command _ hr, afterCommand_drive]

/-- The step at a driven edge. -/
theorem step_drive_eq_afterEdge (s : State) (e : Edge) (es : List Edge) :
    step (s.drive (e :: es)) = .next ((s.afterEdge e).drive es) := by
  rw [step_drive_cons, ← afterEdge_drive, exec_eq_afterCommand, State.afterEdge]
  split <;> rfl

/-- An edge carries a FINAL exactly when reset is low and the word decodes to one. -/
theorem isFinal_iff {e : Edge} : e.isFinal = true ↔ e.rst = false ∧ ∃ d, decode e.cmd = .final d := by
  cases hr : e.rst <;> cases hd : decode e.cmd <;> simp [Edge.isFinal, hr, hd]

/-- An edge re-arms exactly when it is a reset, an INIT or a FINAL (00_scope.md R6). -/
theorem isRearm_iff {e : Edge} :
    e.isRearm = true ↔ e.rst = true ∨ (∃ d, decode e.cmd = .init d) ∨ ∃ d, decode e.cmd = .final d := by
  cases hr : e.rst <;> cases hd : decode e.cmd <;> simp [Edge.isRearm, hr, hd]

/-! ### Runs -/

/-- A run over driven edges ends in the fold of the edges' effects (30_encoding.md R59). -/
theorem runOver_eq_foldl (s : State) (es : List Edge) : s.runOver es = .next (es.foldl State.afterEdge s) := by
  induction es generalizing s with
  | nil => rfl
  | cons e es ih => exact (run_succ_of_step es.length (step_drive_eq_afterEdge s e es)).trans (ih (s.afterEdge e))

end Sys2Proof.Machine
end

section
/-! PROOFS. What the block remembers of its past (00_scope.md R6): the accumulator's future depends on the accumulator alone, a
re-arm erases that, and from equal accumulators a FINAL or a reset publishes equal results. -/

namespace Sys2Proof.Machine

/-! ### The output ports after each update -/

@[simp] theorem setAcc_outputs (s : State) (a : Word) : (s.setAcc a).outputs = s.outputs := rfl
@[simp] theorem rearm_outputs (s : State) : s.rearm.outputs = s.outputs := rfl
@[simp] theorem resetEdge_outputs (s : State) :
    s.resetEdge.outputs = ⟨Config.resetCrc, Config.resetHex, Config.resetValid⟩ := rfl
@[simp] theorem setResult_setValid_outputs (s : State) (r : Word) :
    (s.setResult r).setValid.outputs = ⟨r, hexbus r, true⟩ := rfl

/-! ### One edge -/

/-- After a reset, an INIT or a FINAL the accumulator is armed, whatever it held (00_scope.md R6). -/
theorem afterEdge_acc_of_isRearm (s : State) {e : Edge} (h : e.isRearm = true) : (s.afterEdge e).acc = Config.accInit := by
  cases hr : e.rst with
  | true => rw [afterEdge_of_rst s hr, resetEdge_acc]
  | false =>
    obtain hrst | ⟨d, hd⟩ | ⟨d, hd⟩ := isRearm_iff.mp h
    · simp [hr] at hrst
    · rw [afterEdge_of_command s hr, hd, afterCommand_init, rearm_acc]
    · rw [afterEdge_of_command s hr, hd, afterCommand_final, rearm_acc]

/-- The accumulator after an edge depends on no register but the accumulator before it. -/
theorem afterEdge_acc_congr {s s' : State} (e : Edge) (h : s.acc = s'.acc) :
    (s.afterEdge e).acc = (s'.afterEdge e).acc := by
  cases hr : e.rst with
  | true => simp only [afterEdge_of_rst _ hr, resetEdge_acc]
  | false =>
    simp only [afterEdge_of_command _ hr]
    cases decode e.cmd <;> simp [h]

/-- The outputs after an edge depend on the accumulator and the outputs before it. -/
theorem afterEdge_outputs_congr {s s' : State} (e : Edge) (hacc : s.acc = s'.acc) (hout : s.outputs = s'.outputs) :
    (s.afterEdge e).outputs = (s'.afterEdge e).outputs := by
  cases hr : e.rst with
  | true => simp only [afterEdge_of_rst _ hr, resetEdge_outputs]
  | false =>
    simp only [afterEdge_of_command _ hr]
    cases decode e.cmd <;> simp [hacc, hout]

/-- A reset or a FINAL overwrites all the outputs, from the accumulator at most (10_state.md R20, 42_finalizer_hex.md R114). -/
theorem afterEdge_outputs_of_publish {s s' : State} {e : Edge} (he : e.rst = true ∨ e.isFinal = true)
    (hacc : s.acc = s'.acc) : (s.afterEdge e).outputs = (s'.afterEdge e).outputs := by
  obtain hr | hf := he
  · simp only [afterEdge_of_rst _ hr, resetEdge_outputs]
  · obtain ⟨hr, d, hd⟩ := isFinal_iff.mp hf
    simp [afterEdge_of_command _ hr, hd, hacc]

/-! ### Runs -/

/-- Equal accumulators stay equal over the same edges. -/
theorem foldl_afterEdge_acc_congr {s s' : State} (es : List Edge) (h : s.acc = s'.acc) :
    (es.foldl State.afterEdge s).acc = (es.foldl State.afterEdge s').acc :=
  List.foldl_rel (r := fun t t' : State => t.acc = t'.acc) h fun e _ _ _ => afterEdge_acc_congr e

/-- Equal accumulators and equal outputs give equal outputs over the same edges. -/
theorem foldl_afterEdge_outputs_congr {s s' : State} (es : List Edge) (hacc : s.acc = s'.acc)
    (hout : s.outputs = s'.outputs) :
    (es.foldl State.afterEdge s).outputs = (es.foldl State.afterEdge s').outputs :=
  (List.foldl_rel (r := fun t t' : State => t.acc = t'.acc ∧ t.outputs = t'.outputs) ⟨hacc, hout⟩
    fun e _ _ _ ⟨ha, ho⟩ => ⟨afterEdge_acc_congr e ha, afterEdge_outputs_congr e ha ho⟩).2

/-- From equal accumulators, edges with a reset or a FINAL among them leave equal outputs: that edge overwrites them, and they
agree from there on. -/
theorem foldl_afterEdge_outputs_of_publish {s s' : State} {es : List Edge} (hacc : s.acc = s'.acc)
    (hpub : ∃ f ∈ es, f.rst = true ∨ f.isFinal = true) :
    (es.foldl State.afterEdge s).outputs = (es.foldl State.afterEdge s').outputs := by
  obtain ⟨f, hmem, hf⟩ := hpub
  obtain ⟨before, after, rfl⟩ := List.append_of_mem hmem
  have hbefore := foldl_afterEdge_acc_congr before hacc
  simp only [List.foldl_append, List.foldl_cons]
  exact foldl_afterEdge_outputs_congr after (afterEdge_acc_congr f hbefore) (afterEdge_outputs_of_publish hf hbefore)

/-- Settles O31: the re-arm makes the two accumulators equal, equal accumulators stay equal, and the next FINAL or reset makes
the outputs equal as well. -/
theorem earlierBytesNeverInfluence : Obligations.EarlierBytesNeverInfluence := by
  refine ⟨fun s e he => ⟨_, runOver_eq_foldl s [e], afterEdge_acc_of_isRearm s he⟩, fun s s' e es he => ?_⟩
  have harmed : (s.afterEdge e).acc = (s'.afterEdge e).acc := by
    rw [afterEdge_acc_of_isRearm s he, afterEdge_acc_of_isRearm s' he]
  exact ⟨_, _, runOver_eq_foldl s (e :: es), runOver_eq_foldl s' (e :: es), foldl_afterEdge_acc_congr es harmed,
    foldl_afterEdge_outputs_of_publish harmed⟩

end Sys2Proof.Machine
end

section
/-! PROOFS. Invariants of the machine: what each edge keeps, each step and each run keeps. Then the invariant of 10_state.md
R24: `crc_q` and `hex_q` are written together or not at all. -/

namespace Sys2Proof.Machine

/-! ### From edges to steps and runs -/

/-- What a step leaves is the state itself, for want of an edge, or the state after the edge it took (30_encoding.md R59). -/
theorem step_cases_afterEdge {s t : State} (h : step s = .next t) :
    (s.pins = [] ∧ t = s) ∨ ∃ e later, s.pins = e :: later ∧ t = ({ s with pins := later } : State).afterEdge e := by
  obtain hnone | ⟨e, later, hpins, ⟨hr, rfl⟩ | ⟨hr, hexec⟩⟩ := step_cases h
  · exact .inl hnone
  · exact .inr ⟨e, later, hpins, (afterEdge_of_rst _ hr).symm⟩
  · rw [exec_eq_afterCommand, ← afterEdge_of_command _ hr] at hexec
    exact .inr ⟨e, later, hpins, (Host.Outcome.next.inj hexec).symm⟩

/-- A property that every edge keeps, and that does not speak of the edges to come, is kept by every step. -/
theorem step_keeps_of_afterEdge_keeps {P : State → Prop} (hpins : ∀ s later, P s → P { s with pins := later })
    (hedge : ∀ s e, P s → P (s.afterEdge e)) {s t : State} (hs : P s) (h : step s = .next t) : P t := by
  obtain ⟨-, rfl⟩ | ⟨e, later, -, rfl⟩ := step_cases_afterEdge h
  · exact hs
  · exact hedge _ e (hpins s later hs)

/-- A property that every step keeps is kept by every run. -/
theorem run_keeps_of_step_keeps {P : State → Prop} (hstep : ∀ s t, P s → step s = .next t → P t) {k : Nat} {s t : State}
    (hs : P s) (h : Host.Core.run Sys2Proof.core k s = .next t) : P t := by
  induction k generalizing s with
  | zero => exact Host.Outcome.next.inj h ▸ hs
  | succ k ih =>
    cases hu : step s with
    | next u =>
      rw [run_succ_of_step k hu] at h
      exact ih (hstep s u hs hu) h
    | fault r => exact nomatch r
    | refused r =>
      rw [run_succ_of_refused k hu] at h
      cases h

/-! ### The text beside the checksum -/

/-- The reset values are a checksum and its text (10_state.md R24). -/
theorem hexbus_resetCrc : hexbus Config.resetCrc = Config.resetHex := by decide

@[simp] theorem setAcc_textMatches (s : State) (a : Word) : (s.setAcc a).TextMatches ↔ s.TextMatches := Iff.rfl
@[simp] theorem rearm_textMatches (s : State) : s.rearm.TextMatches ↔ s.TextMatches := Iff.rfl
@[simp] theorem setValid_textMatches (s : State) : s.setValid.TextMatches ↔ s.TextMatches := Iff.rfl
@[simp] theorem setResult_textMatches (s : State) (r : Word) : (s.setResult r).TextMatches := rfl
@[simp] theorem resetEdge_textMatches (s : State) : s.resetEdge.TextMatches := hexbus_resetCrc.symm

/-- Every edge keeps the text that of the checksum: reset and FINAL write both, the other commands neither. -/
theorem afterEdge_textMatches {s : State} (e : Edge) (h : s.TextMatches) : (s.afterEdge e).TextMatches := by
  cases hr : e.rst with
  | true => simp [afterEdge_of_rst s hr]
  | false =>
    rw [afterEdge_of_command s hr]
    cases decode e.cmd <;> simp [h]

theorem step_textMatches {s t : State} (hs : s.TextMatches) (h : step s = .next t) : t.TextMatches :=
  step_keeps_of_afterEdge_keeps (fun _ _ hu => hu) (fun _ e hu => afterEdge_textMatches e hu) hs h

/-! ### The checksum while the flag is clear -/

@[simp] theorem setAcc_flagHonest (s : State) (a : Word) : (s.setAcc a).FlagHonest ↔ s.FlagHonest := Iff.rfl
@[simp] theorem rearm_flagHonest (s : State) : s.rearm.FlagHonest ↔ s.FlagHonest := Iff.rfl
@[simp] theorem setValid_flagHonest (s : State) : s.setValid.FlagHonest := fun h => nomatch h
@[simp] theorem resetEdge_flagHonest (s : State) : s.resetEdge.FlagHonest := fun _ => rfl

/-- Every edge keeps the checksum at its reset value while the flag is clear: only FINAL writes another, and it sets the flag. -/
theorem afterEdge_flagHonest {s : State} (e : Edge) (h : s.FlagHonest) : (s.afterEdge e).FlagHonest := by
  cases hr : e.rst with
  | true => simp [afterEdge_of_rst s hr]
  | false =>
    rw [afterEdge_of_command s hr]
    cases decode e.cmd <;> simp [h]

theorem step_flagHonest {s t : State} (hs : s.FlagHonest) (h : step s = .next t) : t.FlagHonest :=
  step_keeps_of_afterEdge_keeps (fun _ _ hu => hu) (fun _ e hu => afterEdge_flagHonest e hu) hs h

/-! ### The invariant -/

theorem step_inv {s t : State} (hs : s.Inv) (h : step s = .next t) : t.Inv :=
  ⟨step_textMatches hs.1 h, step_flagHonest hs.2 h⟩

/-- The text is that of the checksum at reset, whatever the host is to drive. -/
theorem reset_drive_textMatches (es : List Edge) : (State.reset.drive es).TextMatches := hexbus_resetCrc.symm

/-- Settles O37: every edge writes `crc_q` and `hex_q` together or not at all, so the text matches after every step; the runs
from reset follow by induction on their length. -/
theorem invariantKeptByEveryStep : Obligations.InvariantKeptByEveryStep :=
  ⟨fun _ _ => step_inv, fun _ _ => step_textMatches,
    fun es _ _ => run_keeps_of_step_keeps (fun _ _ => step_textMatches) (reset_drive_textMatches es)⟩

end Sys2Proof.Machine
end

section
/-! PROOFS. The reset edge (10_state.md R20) and the flag `out_valid` (R14), a level: set by FINAL, cleared by reset only, read by
no command. -/

namespace Sys2Proof.Machine

/-! ### The reset edge -/

/-- The run over one reset edge, whatever the command word (60_exceptions.md R132). -/
theorem runOver_singleton_of_rst (s : State) {e : Edge} (h : e.rst = true) : s.runOver [e] = .next s.resetEdge := by
  rw [runOver_eq_foldl, List.foldl_cons, List.foldl_nil, afterEdge_of_rst s h]

/-- Settles O1: the run over a reset edge is `resetEdge`, which writes the four values of 10_state.md R20. -/
theorem resetEdgeLeavesResetValues : Obligations.ResetEdgeLeavesResetValues :=
  ⟨fun s _ => runOver_singleton_of_rst s rfl, reset_acc, reset_crc_q, reset_hex_q, reset_out_valid⟩

/-! ### The flag after one edge -/

/-- The flag after an edge without reset: set by a FINAL, kept by any other command. -/
theorem afterEdge_out_valid_of_command (s : State) {e : Edge} (h : e.rst = false) :
    (s.afterEdge e).out_valid = (e.isFinal || s.out_valid) := by
  rw [afterEdge_of_command s h]
  cases hd : decode e.cmd <;> simp [Edge.isFinal, h, hd]

/-- The flag is set after an edge exactly when the edge is a FINAL, or the flag was set and the edge is no reset. -/
theorem afterEdge_out_valid_iff (s : State) (e : Edge) :
    (s.afterEdge e).out_valid = true ↔ e.isFinal = true ∨ (s.out_valid = true ∧ e.rst = false) := by
  cases hr : e.rst with
  | true => simp [afterEdge_of_rst s hr, Edge.isFinal, hr, Config.resetValid]
  | false => simp [afterEdge_out_valid_of_command s hr]

/-- Nothing but reset clears the flag (10_state.md R14). -/
theorem rst_of_step_clears_out_valid {s t : State} (h : step s = .next t) (hs : s.out_valid = true)
    (ht : t.out_valid = false) : ∃ e later, s.pins = e :: later ∧ e.rst = true := by
  obtain ⟨-, rfl⟩ | ⟨e, later, hpins, rfl⟩ := step_cases_afterEdge h
  · exact absurd hs (Bool.eq_false_iff.mp ht)
  · refine ⟨e, later, hpins, ?_⟩
    by_contra hr
    exact Bool.eq_false_iff.mp ht ((afterEdge_out_valid_iff _ e).mpr (.inr ⟨hs, Bool.eq_false_iff.mpr hr⟩))

/-- No command reads the flag: with it changed beforehand, a command leaves the same state but for the flag. -/
theorem afterCommand_of_out_valid_changed (s : State) (v : Bool) (i : Instr) :
    ∃ v', ({ s with out_valid := v } : State).afterCommand i = { s.afterCommand i with out_valid := v' } := by
  cases i with
  | nop d => exact ⟨v, rfl⟩
  | init d => exact ⟨v, rfl⟩
  | byte b => exact ⟨v, rfl⟩
  | final d => exact ⟨true, rfl⟩

/-! ### The flag after a run -/

/-- Among the edges stands a FINAL with no reset after it (10_state.md R14: "performed since the last reset"). -/
def FinalSinceReset (es : List Edge) : Prop :=
  ∃ before f after, es = before ++ f :: after ∧ f.isFinal = true ∧ ∀ e ∈ after, e.rst = false

theorem not_finalSinceReset_nil : ¬ FinalSinceReset [] := by
  simp [FinalSinceReset]

/-- That FINAL is the first edge, or it stands among the later ones. -/
theorem finalSinceReset_cons (e : Edge) (es : List Edge) :
    FinalSinceReset (e :: es) ↔ (e.isFinal = true ∧ ∀ f ∈ es, f.rst = false) ∨ FinalSinceReset es := by
  constructor
  · rintro ⟨before, f, after, heq, hf, hafter⟩
    obtain ⟨rfl, hcons⟩ | ⟨before', rfl, rfl⟩ := List.cons_eq_append_iff.mp heq
    · obtain ⟨rfl, rfl⟩ := List.cons.inj hcons
      exact .inl ⟨hf, hafter⟩
    · exact .inr ⟨before', f, after, rfl, hf, hafter⟩
  · rintro (⟨hf, hafter⟩ | ⟨before, f, after, rfl, hf, hafter⟩)
    · exact ⟨[], e, es, rfl, hf, hafter⟩
    · exact ⟨e :: before, f, after, rfl, hf, hafter⟩

/-- The flag is set after a run exactly when a FINAL came with no reset after it, or it was set before and no reset came. -/
theorem foldl_afterEdge_out_valid_iff (s : State) (es : List Edge) :
    (es.foldl State.afterEdge s).out_valid = true ↔
      FinalSinceReset es ∨ (s.out_valid = true ∧ ∀ e ∈ es, e.rst = false) := by
  induction es generalizing s with
  | nil => simp [not_finalSinceReset_nil]
  | cons e es ih =>
    rw [List.foldl_cons, ih, afterEdge_out_valid_iff, finalSinceReset_cons, List.forall_mem_cons]
    tauto

/-- Settles O39: each edge's effect on the flag is said once by `afterEdge_out_valid_iff`; the run's is by induction on its
edges. -/
theorem flagIsLevelSetByFinal : Obligations.FlagIsLevelSetByFinal := by
  refine ⟨fun s cmd => ⟨_, runOver_singleton_of_rst s rfl, resetEdge_out_valid s⟩, fun s d => ⟨_, exec_final d s, rfl⟩,
    fun s t => rst_of_step_clears_out_valid, fun s t es hs h => ?_, fun i s t v h => ?_⟩
  · rw [runOver_eq_foldl] at h
    rw [← Host.Outcome.next.inj h, foldl_afterEdge_out_valid_iff, hs]
    simp [FinalSinceReset]
  · rw [exec_eq_afterCommand] at h
    obtain ⟨v', hv'⟩ := afterCommand_of_out_valid_changed s v i
    exact ⟨v', by rw [exec_eq_afterCommand, hv', Host.Outcome.next.inj h]⟩

end Sys2Proof.Machine
end

section
/-! PROOFS. The ROM read of a BYTE (20_memory.md R32, R33, R35): every index has a word, and masking makes every index fit. -/

namespace Sys2Proof.Machine

/-- `AND 0xFF` leaves a number below the ROM's 256 words (20_memory.md R35). -/
theorem toNat_lowByteMask_lt (w : Word) : (w &&& 0x000000FF#32).toNat < 256 := by
  rw [BitVec.toNat_and]
  exact Nat.lt_succ_of_le Nat.and_le_right

/-- The 8-bit index is the masked word itself: the mask has cleared every bit that the index drops (41_fold_datapath.md R90). -/
theorem romIndex_toNat (a : Word) (b : Byte) :
    (romIndex a b).toNat = ((a ^^^ zext32 b) &&& 0x000000FF#32).toNat := by
  rw [romIndex, BitVec.toNat_setWidth]
  exact Nat.mod_eq_of_lt (toNat_lowByteMask_lt _)

/-- At every index the ROM has a word, the one that is read (20_memory.md R32, R35). -/
theorem romContents_getElem?_toNat (i : Byte) : romContents[i.toNat]? = some (romRead i) :=
  List.getElem?_eq_getElem (romContents_length ▸ i.isLt)

/-- Settles O14: the masked word is below 256 and is the machine's index, and the ROM has a word at each index. -/
theorem romIndexIsAlwaysInRange : Obligations.RomIndexIsAlwaysInRange := by
  refine ⟨romContents_length, fun a b => ⟨toNat_lowByteMask_lt _, romIndex_toNat a b, ?_⟩⟩
  have hindex : ((a ^^^ b.setWidth 32) &&& 0x000000FF#32).toNat = (romIndex a b).toNat := (romIndex_toNat a b).symm
  rw [hindex, romContents_getElem?_toNat]

end Sys2Proof.Machine
end

section
/-! PROOFS. The command word (30_encoding.md R51, R52, R54): its two fields determine it, the decoder is a choice by the field
`op`, decoding and encoding undo each other, and the ignored data has no effect. -/

namespace Sys2Proof

/-! ### The two fields of a word -/

theorem opField_getLsbD (w : CmdWord) {j : Nat} (h : j < 2) : (opField w).getLsbD j = w.getLsbD (8 + j) := by
  simp [opField, h]

theorem dataField_getLsbD (w : CmdWord) {j : Nat} (h : j < 8) : (dataField w).getLsbD j = w.getLsbD j := by
  simp [dataField, h]

/-- A word is its two fields, `op` above `data` (30_encoding.md R51). -/
theorem opField_append_dataField (w : CmdWord) : opField w ++ dataField w = w :=
  (BitVec.extractLsb'_append_extractLsb'_eq_extractLsb' rfl).trans BitVec.extractLsb'_eq_self

/-- Two fields side by side are the number `op * 256 + data` (30_encoding.md R51). -/
theorem toNat_op_append_data (op : BitVec 2) (data : Byte) : (op ++ data).toNat = op.toNat * 256 + data.toNat := by
  rw [BitVec.toNat_append, ← Nat.shiftLeft_add_eq_or_of_lt data.isLt, Nat.shiftLeft_eq]

/-- Putting `data` under `op` is adding it to the word with `data = 0` (30_encoding.md R51, R56: `0x200 + n`). -/
theorem op_append_data_eq_add (op : BitVec 2) (data : Byte) : op ++ data = (op ++ 0#8) + data.setWidth 10 := by
  apply BitVec.eq_of_toNat_eq
  simp only [BitVec.toNat_add, BitVec.toNat_setWidth, toNat_op_append_data, BitVec.toNat_zero]
  omega

/-- Settles O48: the bits by the definition of the fields, the number because the fields side by side are the word. -/
theorem commandWordIsOpAboveData : Obligations.CommandWordIsOpAboveData := by
  refine ⟨fun w _ => opField_getLsbD w, fun w _ => dataField_getLsbD w, fun w => ?_⟩
  rw [← toNat_op_append_data, opField_append_dataField]

/-! ### The decoder -/

/-- Everything the decoder can answer: one command for each value of `op`, with the word's `data` (30_encoding.md R52). -/
theorem decode_cases (w : CmdWord) :
    (opField w = 0b00#2 ∧ decode w = .nop (dataField w)) ∨
    (opField w = 0b01#2 ∧ decode w = .init (dataField w)) ∨
    (opField w = 0b10#2 ∧ decode w = .byte (dataField w)) ∨
    (opField w = 0b11#2 ∧ decode w = .final (dataField w)) := by
  have h9 : w.getLsbD 9 = (opField w).getLsbD 1 := (opField_getLsbD w Nat.one_lt_two).symm
  have h8 : w.getLsbD 8 = (opField w).getLsbD 0 := (opField_getLsbD w Nat.two_pos).symm
  have hop : ∀ op : BitVec 2, op = 0b00#2 ∨ op = 0b01#2 ∨ op = 0b10#2 ∨ op = 0b11#2 := by decide
  rw [decode, h9, h8]
  obtain h | h | h | h := hop (opField w) <;> rw [h]
  · exact .inl ⟨rfl, rfl⟩
  · exact .inr (.inl ⟨rfl, rfl⟩)
  · exact .inr (.inr (.inl ⟨rfl, rfl⟩))
  · exact .inr (.inr (.inr ⟨rfl, rfl⟩))

/-- The word of a command decodes to it (30_encoding.md section 1). -/
@[simp] theorem decode_encode (i : Instr) : decode (encode i) = i := by
  have hcases := decode_cases (encode i)
  rw [opField_encode, dataField_encode] at hcases
  cases i <;> simpa using hcases

/-- The command of a word has it as its word: the ignored `data` is kept (30_encoding.md section 1, log entry 6). -/
@[simp] theorem encode_decode (w : CmdWord) : encode (decode w) = w := by
  have hfields : encode (decode w) = opField w ++ dataField w := by
    obtain ⟨hop, hd⟩ | ⟨hop, hd⟩ | ⟨hop, hd⟩ | ⟨hop, hd⟩ := decode_cases w <;> rw [hop, hd] <;> rfl
  rw [hfields, opField_append_dataField]

/-- The word of a command is that of its opcode with its `data` added (30_encoding.md R51, R56). -/
theorem encode_eq_add (i : Instr) : encode i = (i.opcode ++ 0#8) + i.data.setWidth 10 :=
  op_append_data_eq_add i.opcode i.data

theorem encode_byte_eq_add (b : Byte) : encode (.byte b) = 0x200#10 + b.setWidth 10 := by
  simp [encode_eq_add]

@[simp] theorem encode_nop_zero : encode (.nop 0#8) = 0x000#10 := rfl
@[simp] theorem encode_init_zero : encode (.init 0#8) = 0x100#10 := rfl
@[simp] theorem encode_final_zero : encode (.final 0#8) = 0x300#10 := rfl

/-- Adding `data` to the word of an opcode with `data = 0` gives a word of the command with that `data`. -/
theorem decode_opcode_add_data (i : Instr) : decode ((i.opcode ++ 0#8) + i.data.setWidth 10) = i := by
  rw [← encode_eq_add, decode_encode]

/-- Settles O8: no meaning refuses or reads the ignored `data`, and adding `data` to a word with `data = 0` gives the word of
the command with that `data`. -/
theorem noWordIsIllegalAndDataIsIgnored : Obligations.NoWordIsIllegalAndDataIsIgnored := by
  refine ⟨fun w s => ⟨_, Machine.exec_eq_afterCommand (decode w) s⟩, fun d => ?_, fun d s => ?_, fun d => ?_⟩
  · have hdecode := decode_opcode_add_data
    exact ⟨by simpa using hdecode (.nop d), by simpa using hdecode (.init d), by simpa using hdecode (.final d)⟩
  · exact ⟨rfl, rfl, rfl⟩
  · exact ⟨beq_iff_eq, beq_iff_eq, beq_iff_eq⟩

end Sys2Proof
end

section
/-! PROOFS. `STEP` on the functions of the rules (30_encoding.md R59): the ROM's literal holds the constructed table, so the
machine's BYTE is the fold of 41_fold_datapath.md R90, and each word has the effect of its row in the opcode map (R52). -/

namespace Sys2Proof.Machine

/-! ### The fold on the ROM is the fold on the constructed table -/

/-- The literal of 40_table_rom.md R72 is the construction of R70, word by word: a computation over the 256 indices. -/
theorem romRead_eq_table : ∀ i : Byte, romRead i = table i := by decide +kernel

theorem foldByte_eq_fold (a : Word) (b : Byte) : foldByte a b = fold a b := by
  rw [foldByte, fold, romRead_eq_table]

/-! ### One edge and one run -/

/-- The state after an edge is `STEP(s, rst, cmd)`: a reset, or the case of the word's `op` (30_encoding.md R59). -/
theorem afterEdge_eq_stepFunction (s : State) (e : Edge) : s.afterEdge e = stepFunction s e := by
  cases hr : e.rst with
  | true => rw [afterEdge_of_rst s hr, stepFunction, if_pos hr]; rfl
  | false =>
    have hfield : e.cmd.extractLsb' 8 2 = opField e.cmd := rfl
    have hdata : e.cmd.extractLsb' 0 8 = dataField e.cmd := rfl
    rw [afterEdge_of_command s hr, stepFunction, hfield, hdata, hr]
    obtain ⟨hop, hd⟩ | ⟨hop, hd⟩ | ⟨hop, hd⟩ | ⟨hop, hd⟩ := decode_cases e.cmd
    · rw [hop, hd]; rfl
    · rw [hop, hd]; rfl
    · rw [hop, hd, afterCommand_byte, foldByte_eq_fold]; rfl
    · rw [hop, hd]; rfl

/-- A run is the iteration of `STEP` over the edges (30_encoding.md R59). -/
theorem runOver_eq_foldl_stepFunction (s : State) (es : List Edge) :
    s.runOver es = .next (es.foldl stepFunction s) := by
  rw [runOver_eq_foldl, funext₂ afterEdge_eq_stepFunction]

/-- The meaning of a word is `STEP` at an edge that presents it without reset. -/
theorem exec_decode_eq_stepFunction (s : State) (w : CmdWord) :
    exec (decode w) s = .next (stepFunction s { rst := false, cmd := w }) := by
  rw [exec_eq_afterCommand, ← afterEdge_eq_stepFunction, afterEdge_of_command s rfl]

/-- Settles O4: one edge is `stepFunction`, which is `STEP` written out, and a run folds it over the edges. -/
theorem edgeIsStepFunction : Obligations.EdgeIsStepFunction :=
  ⟨fun s rst cmd => runOver_eq_foldl_stepFunction s [⟨rst, cmd⟩], runOver_eq_foldl_stepFunction⟩

/-! ### The opcode map -/

/-- Masking a word with the map's mask keeps its `op` and clears its `data` (30_encoding.md R52). -/
theorem and_opcodeMask (w : CmdWord) : w &&& 0x300#10 = opField w ++ 0#8 := by
  rw [← encode_decode w, encode_masked, opField_encode]

/-- A word that matches a row's pattern has the row's `op` in bits 9 and 8 (30_encoding.md R51, R52). -/
theorem op_of_and_opcodeMask {w : CmdWord} (op : BitVec 2) (h : w &&& 0x300#10 = op ++ 0#8) :
    w.extractLsb' 8 2 = op :=
  calc w.extractLsb' 8 2
    _ = (opField w ++ 0#8).extractLsb' 8 2 := BitVec.extractLsb'_append_eq_left.symm
    _ = (op ++ 0#8).extractLsb' 8 2 := by rw [← and_opcodeMask, h]
    _ = op := BitVec.extractLsb'_append_eq_left

/-- Of the map's rows exactly one covers the word of a command: the one of its mnemonic (30_encoding.md R52). -/
theorem filter_covers_encode (i : Instr) :
    ∃ r, opcodeTable.filter (fun r => r.covers (encode i)) = [r] ∧ r.mnemonic = i.mnemonic := by
  cases i <;> simp [opcodeTable, OpcodeRow.covers, encode_masked, Instr.mnemonic]

/-- Settles O7: the row is that of the decoded command, and a word that matches a row's pattern has that row's `op`, which
decides the command and so the effect. -/
theorem opcodeMapPartitionsWords : Obligations.OpcodeMapPartitionsWords := by
  refine ⟨rfl, fun w => ⟨?row, fun h s => ?nop, fun h s => ?init, fun h s => ?byte, fun h s => ?final⟩⟩
  case row => simpa using filter_covers_encode (decode w)
  case nop => rw [exec_decode_eq_stepFunction, stepFunction, op_of_and_opcodeMask 0b00#2 h]; rfl
  case init => rw [exec_decode_eq_stepFunction, stepFunction, op_of_and_opcodeMask 0b01#2 h]; rfl
  case byte => rw [exec_decode_eq_stepFunction, stepFunction, op_of_and_opcodeMask 0b10#2 h]; rfl
  case final => rw [exec_decode_eq_stepFunction, stepFunction, op_of_and_opcodeMask 0b11#2 h]; rfl

end Sys2Proof.Machine
end

section
/-! PROOFS. Runs of commands without reset, and the pseudo-instructions (30_encoding.md R57): a run of BYTEs folds its bytes
(41_fold_datapath.md R96), so the words of CHECKSUM leave the checksum of its bytes (42_finalizer_hex.md R115, R116). -/

namespace Sys2Proof.Machine

/-! ### Runs of commands -/

/-- An edge that presents the word of a command runs the command. -/
@[simp] theorem afterEdge_command (s : State) (i : Instr) : s.afterEdge (.command i) = s.afterCommand i := by
  rw [afterEdge_of_command s rfl, Edge.command, decode_encode]

/-- The run that presents commands one after the other. -/
theorem runOver_commands (s : State) (is : List Instr) :
    s.runOver (is.map Edge.command) = .next (is.foldl State.afterCommand s) := by
  rw [runOver_eq_foldl, List.foldl_map]
  simp only [afterEdge_command]

/-- A run of BYTEs folds their bytes into the accumulator and changes nothing else (41_fold_datapath.md R96). -/
theorem foldl_afterCommand_bytes (s : State) (bs : List Byte) :
    (bs.map Instr.byte).foldl State.afterCommand s = s.setAcc (foldBytes s.acc bs) := by
  induction bs generalizing s with
  | nil => rfl
  | cons b bs ih =>
    rw [List.map_cons, List.foldl_cons, ih, afterCommand_byte, foldByte_eq_fold]
    rfl

/-- INIT, the bytes, FINAL: the run leaves the checksum of the bytes, whatever came before (42_finalizer_hex.md R116). -/
theorem foldl_afterCommand_checksum (s : State) (d d' : Byte) (bs : List Byte) :
    (Instr.init d :: (bs.map Instr.byte ++ [Instr.final d'])).foldl State.afterCommand s =
      { s with acc := 0xFFFFFFFF#32, crc_q := crc32 bs, hex_q := hexbus (crc32 bs), out_valid := true } := by
  rw [List.foldl_cons, List.foldl_append, foldl_afterCommand_bytes]
  rfl

/-! ### The assembler's lines -/

theorem assemble_of_wellFormed {l : AsmLine} (h : l.wellFormed = true) : l.assemble = .ok (l.expand.map encode) := by
  rw [AsmLine.assemble, if_pos h]

/-- Bytes read as numbers are in range (30_encoding.md R56). -/
theorem all_toNat_le_255 (bs : List Byte) : (bs.map BitVec.toNat).all (· ≤ 255) = true := by
  simp only [List.all_map, List.all_eq_true, Function.comp_apply, decide_eq_true_eq]
  exact fun b _ => Nat.le_of_lt_succ b.isLt

@[simp] theorem byteCommand_toNat (b : Byte) : byteCommand b.toNat = .byte b := by
  rw [byteCommand, BitVec.ofNat_toNat, BitVec.setWidth_eq]

/-- The word of an operand in range is `0x200 + n` (30_encoding.md R56). -/
theorem encode_byteCommand {n : Nat} (h : n ≤ 255) : encode (byteCommand n) = 0x200#10 + BitVec.ofNat 10 n := by
  rw [byteCommand, encode_byte_eq_add, BitVec.setWidth_ofNat_of_le_of_lt (by omega) (by omega)]

/-- The commands of a CHECKSUM line (30_encoding.md R57). -/
theorem expand_checksum_toNat (bs : List Byte) :
    (AsmLine.checksum (bs.map BitVec.toNat)).expand = .init 0#8 :: (bs.map Instr.byte ++ [.final 0#8]) := by
  simp [AsmLine.expand, initCommand, finalCommand]

theorem assemble_checksum_toNat (bs : List Byte) :
    (AsmLine.checksum (bs.map BitVec.toNat)).assemble =
      .ok ((Instr.init 0#8 :: (bs.map Instr.byte ++ [Instr.final 0#8])).map encode) := by
  rw [assemble_of_wellFormed (l := .checksum _) (all_toNat_le_255 bs), expand_checksum_toNat]

/-- Driving the words of commands is presenting the commands. -/
theorem map_encode_edges (is : List Instr) :
    (is.map encode).map (fun w => ({ rst := false, cmd := w } : Edge)) = is.map Edge.command :=
  List.map_map

/-- Settles O47: each line is well formed and its expansion is encoded command by command; the run over CHECKSUM's words is
INIT, a fold of the bytes, FINAL. -/
theorem pseudoInstructionsExpand : Obligations.PseudoInstructionsExpand := by
  refine ⟨fun bs => ⟨?bytes, ?checksum⟩, fun n => ?idle, fun text htext => ?ascii, fun s bs ws hws => ?run⟩
  case bytes =>
    rw [assemble_of_wellFormed (l := .bytes _) (all_toNat_le_255 bs)]
    simp [AsmLine.expand, encode_byte_eq_add]
  case checksum =>
    rw [assemble_checksum_toNat]
    simp [encode_byte_eq_add]
  case idle =>
    rw [assemble_of_wellFormed rfl, AsmLine.expand, List.map_replicate, nopCommand, encode_nop_zero]
  case ascii =>
    have hprintable : (AsmLine.ascii text).wellFormed = true := by
      simpa [AsmLine.wellFormed, isPrintable] using htext
    rw [assemble_of_wellFormed hprintable, AsmLine.expand, List.map_map]
    exact congrArg _ (List.map_congr_left fun c hc => encode_byteCommand ((htext c hc).2.trans (by decide)))
  case run =>
    obtain rfl := Except.ok.inj ((assemble_checksum_toNat bs).symm.trans hws)
    rw [map_encode_edges, runOver_commands, foldl_afterCommand_checksum]

end Sys2Proof.Machine
end

section
/-! PROOFS. The table (40_table_rom.md): `TSTEP` by cases and without a branch (R71), the ROM's literal against the
construction (R70, R73), and the properties that follow from linearity over XOR (R78). -/

namespace Sys2Proof.Machine

/-! ### `TSTEP` -/

theorem tstep_of_lowBit {c : Word} (h : c.getLsbD 0 = true) : tstep c = (c >>> 1) ^^^ 0xEDB88320#32 := if_pos h

theorem tstep_of_not_lowBit {c : Word} (h : c.getLsbD 0 = false) : tstep c = c >>> 1 := if_neg (h ▸ Bool.false_ne_true)

/-- `TSTEP` without a branch: the polynomial masked by the low bit (40_table_rom.md R71). -/
theorem tstep_eq_masked (c : Word) : tstep c = (c >>> 1) ^^^ (0xEDB88320#32 &&& BitVec.fill 32 (c.getLsbD 0)) := by
  cases h : c.getLsbD 0 with
  | true => rw [tstep_of_lowBit h, BitVec.fill_true, BitVec.and_allOnes]
  | false => rw [tstep_of_not_lowBit h, BitVec.fill_false, BitVec.and_zero, BitVec.xor_zero]

theorem poly_and_fill_xor : ∀ p q : Bool,
    0xEDB88320#32 &&& BitVec.fill 32 (p ^^ q) =
      (0xEDB88320#32 &&& BitVec.fill 32 p) ^^^ (0xEDB88320#32 &&& BitVec.fill 32 q) := by decide

/-- `TSTEP` is linear over XOR: the shift is, and so is the masked polynomial (40_table_rom.md R78). -/
theorem tstep_xor (x y : Word) : tstep (x ^^^ y) = tstep x ^^^ tstep y := by
  simp only [tstep_eq_masked, BitVec.ushiftRight_xor_distrib, BitVec.getLsbD_xor, poly_and_fill_xor]
  ac_rfl

/-- Settles O11: the two branches are those of the definition; without a branch the low bit masks the polynomial. -/
theorem tableStepTestsLowBitBeforeShift : Obligations.TableStepTestsLowBitBeforeShift :=
  ⟨fun _ => ⟨tstep_of_lowBit, tstep_of_not_lowBit⟩, tstep_eq_masked, by decide⟩

/-! ### The construction and the ROM -/

theorem table_eq_tstep_eight (i : Byte) :
    table i = tstep (tstep (tstep (tstep (tstep (tstep (tstep (tstep (i.setWidth 32)))))))) := rfl

theorem romRead_zero : romRead 0#8 = 0#32 := by decide

theorem romRead_one : romRead 0x01#8 = 0x77073096#32 := by decide

/-- Settles O12: the literal is the construction word by word, and the construction's loop runs eight times. -/
theorem romHoldsConstructedTable : Obligations.RomHoldsConstructedTable :=
  ⟨fun i => ⟨romRead_eq_table i, table_eq_tstep_eight i⟩, romRead_zero, romRead_one⟩

/-! ### Linearity over XOR -/

/-- Repeating a linear step is linear. -/
theorem repeatStep_xor {f : Word → Word} (hf : ∀ x y, f (x ^^^ y) = f x ^^^ f y) (n : Nat) (x y : Word) :
    repeatStep f n (x ^^^ y) = repeatStep f n x ^^^ repeatStep f n y := by
  induction n generalizing x y with
  | zero => rfl
  | succ n ih => simp only [repeatStep, hf, ih]

theorem table_xor (i j : Byte) : table (i ^^^ j) = table i ^^^ table j := by
  simp only [table, zext32, BitVec.setWidth_xor, repeatStep_xor tstep_xor]

/-- The ROM is linear over XOR, as the construction it holds is (40_table_rom.md R78). -/
theorem romRead_xor (i j : Byte) : romRead (i ^^^ j) = romRead i ^^^ romRead j := by
  simp only [romRead_eq_table, table_xor]

theorem extractLsb'_romRead_xor (start : Nat) (i j : Byte) :
    (romRead (i ^^^ j)).extractLsb' start 8 = (romRead i).extractLsb' start 8 ^^^ (romRead j).extractLsb' start 8 := by
  rw [romRead_xor, BitVec.extractLsb'_xor]

/-- A map that is linear over XOR and is 0 only at 0 is injective. -/
theorem injective_of_xor_linear {m n : Nat} {f : BitVec m → BitVec n} (hxor : ∀ x y, f (x ^^^ y) = f x ^^^ f y)
    (hzero : ∀ x, f x = 0#n → x = 0#m) : Function.Injective f := by
  intro x y hxy
  have hdiff : f (x ^^^ y) = 0#n := by rw [hxor, BitVec.xor_eq_zero_iff, hxy]
  exact BitVec.xor_eq_zero_iff.mp (hzero _ hdiff)

/-! ### The end bytes of the entries -/

theorem romRead_topByte_eq_zero : ∀ i : Byte, (romRead i).extractLsb' 24 8 = 0#8 → i = 0#8 := by decide +kernel

theorem romRead_lowByte_eq_zero : ∀ i : Byte, (romRead i).extractLsb' 0 8 = 0#8 → i = 0#8 := by decide +kernel

theorem romRead_topByte_injective : Function.Injective fun i : Byte => (romRead i).extractLsb' 24 8 :=
  injective_of_xor_linear (extractLsb'_romRead_xor 24) romRead_topByte_eq_zero

theorem romRead_lowByte_injective : Function.Injective fun i : Byte => (romRead i).extractLsb' 0 8 :=
  injective_of_xor_linear (extractLsb'_romRead_xor 0) romRead_lowByte_eq_zero

/-- The entries are pairwise distinct, already by their top bytes (40_table_rom.md R78). -/
theorem romRead_injective : Function.Injective romRead := fun _ _ h =>
  romRead_topByte_injective (congrArg (BitVec.extractLsb' 24 8) h)

/-- An injective map of bytes takes every value: there are finitely many bytes. -/
theorem byte_surjective_of_injective {f : Byte → Byte} (hf : Function.Injective f) : Function.Surjective f :=
  have : Finite Byte := Finite.of_injective BitVec.toFin BitVec.toFin_injective
  Finite.surjective_of_injective hf

/-- Settles O13: `TSTEP` is linear, so the ROM and its end bytes are. The end bytes are 0 only at index 0, so they are
injective, and on 256 indices each is a permutation; the entries are distinct by their top bytes. -/
theorem tableIsLinearWithPermutedEnds : Obligations.TableIsLinearWithPermutedEnds := by
  refine ⟨⟨tstep_xor, by decide, romRead_xor, romRead_zero⟩, ?powers, fun _ _ h => romRead_injective h,
    ⟨byte_surjective_of_injective romRead_topByte_injective, byte_surjective_of_injective romRead_lowByte_injective⟩,
    fun _ h => romRead_injective (h.trans romRead_zero.symm)⟩
  case powers => decide

end Sys2Proof.Machine
end

section
/-! PROOFS. The commands of the folding datapath one by one (41_fold_datapath.md section 2): the fold and its shift,
idle cycles, and the re-arm by INIT. -/

namespace Sys2Proof.Machine

/-! ### The fold of one byte -/

theorem table_zero : table 0#8 = 0#32 := (romRead_eq_table 0#8).symm.trans romRead_zero

/-- The byte that equals the accumulator's low byte reads the zero word, so that the shift alone is left
(41_fold_datapath.md R94). -/
theorem fold_lowByte (a : Word) : fold a (a.extractLsb' 0 8) = a >>> 8 := by
  rw [fold, romIndex_eq_xor, BitVec.xor_self, table_zero, BitVec.zero_xor]

/-- Settles O18: BYTE writes the fold on the ROM, which holds the constructed table. -/
theorem byteFoldsAccumulatorOnly : Obligations.ByteFoldsAccumulatorOnly := by
  refine ⟨fun b s => ?effect, fun a b => ⟨rfl, romIndex_eq_xor a b⟩, encode_byte_eq_add, by decide, fold_lowByte,
    by decide, by decide⟩
  case effect => rw [exec_byte, foldByte_eq_fold]; rfl

/-! ### The shift of the fold -/

/-- The logical shift as wiring: a zero byte above `a[31:8]` (41_fold_datapath.md R91). -/
theorem ushiftRight_eight_eq_append (a : Word) : a >>> 8 = 0x00#8 ++ a.extractLsb' 8 24 :=
  BitVec.ushiftRight_eq_extractLsb'_of_lt (by decide)

theorem topByte_ushiftRight_eight (a : Word) : (a >>> 8).extractLsb' 24 8 = 0x00#8 := by
  rw [ushiftRight_eight_eq_append]
  exact BitVec.extractLsb'_append_eq_left

/-- Settles O19: the shift puts a zero byte on top, so the top byte of the fold is that of the ROM's word. -/
theorem foldShiftFillsWithZeros : Obligations.FoldShiftFillsWithZeros := by
  refine ⟨fun a => ⟨topByte_ushiftRight_eight a, ushiftRight_eight_eq_append a⟩, fun a b => ?_, by decide⟩
  rw [foldByte, BitVec.extractLsb'_xor, topByte_ushiftRight_eight, BitVec.xor_zero, romIndex_eq_xor]

/-! ### Idle cycles -/

/-- An edge is idle exactly when reset is low and the word decodes to a NOP. -/
theorem isIdle_iff {e : Edge} : e.isIdle = true ↔ e.rst = false ∧ ∃ d, decode e.cmd = .nop d := by
  cases hr : e.rst <;> cases hd : decode e.cmd <;> simp [Edge.isIdle, hr, hd]

/-- An idle edge leaves the whole state (41_fold_datapath.md R92). -/
theorem afterEdge_of_isIdle (s : State) {e : Edge} (h : e.isIdle = true) : s.afterEdge e = s := by
  obtain ⟨hr, d, hd⟩ := isIdle_iff.mp h
  rw [afterEdge_of_command s hr, hd, afterCommand_nop]

/-- Leaving out the idle edges leaves out edges without effect. -/
theorem foldl_afterEdge_filter_not_isIdle (s : State) (es : List Edge) :
    (es.filter (fun e => !e.isIdle)).foldl State.afterEdge s = es.foldl State.afterEdge s := by
  induction es generalizing s with
  | nil => rfl
  | cons e es ih =>
    cases he : e.isIdle with
    | true => rw [List.filter_cons_of_neg (by simp [he]), ih, List.foldl_cons, afterEdge_of_isIdle s he]
    | false => rw [List.filter_cons_of_pos (by simp [he]), List.foldl_cons, ih, List.foldl_cons]

/-- Settles O16: a NOP answers the state it is given, so a run may leave its idle edges out. -/
theorem nopChangesNothing : Obligations.NopChangesNothing :=
  ⟨exec_nop, fun d => opField_encode (.nop d), encode_nop_zero, fun s es => by
    rw [runOver_eq_foldl, runOver_eq_foldl, foldl_afterEdge_filter_not_isIdle]⟩

/-! ### The re-arm -/

/-- Re-arming an armed accumulator changes nothing. -/
theorem rearm_of_armed {s : State} (h : s.acc = Config.accInit) : s.rearm = s := by
  rw [State.rearm, ← h]
  rfl

/-- A reset and a FINAL re-arm (00_scope.md R6). -/
theorem isRearm_of_rst_or_isFinal {e : Edge} (h : e.rst = true ∨ e.isFinal = true) : e.isRearm = true :=
  isRearm_iff.mpr (h.imp_right fun hf => .inr (isFinal_iff.mp hf).2)

theorem isRearm_command_init (d : Byte) : (Edge.command (.init d)).isRearm = true :=
  isRearm_iff.mpr (.inr (.inl ⟨d, decode_encode _⟩))

/-- An INIT directly after a re-arm changes nothing (41_fold_datapath.md R93). -/
theorem runOver_init_of_isRearm (s : State) {e : Edge} (d : Byte) (h : e.isRearm = true) :
    s.runOver [e, .command (.init d)] = s.runOver [e] := by
  simp only [runOver_eq_foldl, List.foldl_cons, List.foldl_nil, afterEdge_command, afterCommand_init,
    rearm_of_armed (afterEdge_acc_of_isRearm s h)]

/-- An INIT leaves no trace of the bytes before it (41_fold_datapath.md R93). -/
theorem runOver_bytes_init (s : State) (bs : List Byte) (d : Byte) :
    s.runOver (bs.map (fun b => Edge.command (.byte b)) ++ [.command (.init d)]) = .next s.rearm := by
  have hcommands : bs.map (fun b => Edge.command (.byte b)) ++ [.command (.init d)] =
      (bs.map Instr.byte ++ [Instr.init d]).map Edge.command := by simp
  rw [hcommands, runOver_commands, List.foldl_append, foldl_afterCommand_bytes]
  rfl

/-- Settles O17: INIT is `rearm`; after another re-arm it finds the accumulator armed, and after BYTEs it overwrites the one
register they write. -/
theorem initRearmsAccumulatorOnly : Obligations.InitRearmsAccumulatorOnly :=
  ⟨exec_init, fun d => opField_encode (.init d), encode_init_zero,
    fun d d' s => runOver_init_of_isRearm s d' (isRearm_command_init d),
    fun _ d s he => runOver_init_of_isRearm s d (isRearm_of_rst_or_isFinal he),
    fun d s bs d' => (runOver_bytes_init s bs d).trans (runOver_commands s [.init d']).symm,
    fun s _ => exec_init 0#8 s⟩

end Sys2Proof.Machine
end

section
/-! PROOFS. Messages (41_fold_datapath.md section 3): the edges inside a message fold its bytes in time order (R95, R96), and
the message without bytes has the checksum zero (R97). -/

namespace Sys2Proof.Machine

/-! ### The bytes of a sequence of edges -/

/-- The bytes of edges are those of the first edge, then those of the later ones. -/
theorem bytesOf_cons (e : Edge) (es : List Edge) : bytesOf (e :: es) = bytesOf [e] ++ bytesOf es := by
  cases hr : e.rst <;> cases hd : decode e.cmd <;> simp [bytesOf, hr, hd]

/-- Time order: the bytes of earlier edges come first (41_fold_datapath.md R95). -/
theorem bytesOf_append (es fs : List Edge) : bytesOf (es ++ fs) = bytesOf es ++ bytesOf fs := by
  induction es with
  | nil => rfl
  | cons e es ih => rw [List.cons_append, bytesOf_cons, ih, bytesOf_cons e es, List.append_assoc]

/-! ### The fold over bytes -/

theorem foldBytes_append (a : Word) (bs bs' : List Byte) : foldBytes a (bs ++ bs') = foldBytes (foldBytes a bs) bs' :=
  List.foldl_append

/-- The recursion that defines `ACC_AFTER` (41_fold_datapath.md R96). -/
theorem accAfter_append_singleton (bs : List Byte) (b : Byte) : accAfter (bs ++ [b]) = fold (accAfter bs) b :=
  foldBytes_append Config.accInit bs [b]

/-! ### The edges inside a message -/

/-- An edge is inside a message exactly when reset is low and the word decodes to a NOP or a BYTE. -/
theorem isBody_iff {e : Edge} :
    e.isBody = true ↔ e.rst = false ∧ ((∃ d, decode e.cmd = .nop d) ∨ ∃ b, decode e.cmd = .byte b) := by
  cases hr : e.rst <;> cases hd : decode e.cmd <;> simp [Edge.isBody, hr, hd]

/-- An edge inside a message folds the byte it carries, if it carries one, and changes nothing else. -/
theorem afterEdge_of_isBody (s : State) {e : Edge} (h : e.isBody = true) :
    s.afterEdge e = s.setAcc (foldBytes s.acc (bytesOf [e])) := by
  obtain ⟨hr, ⟨d, hd⟩ | ⟨b, hd⟩⟩ := isBody_iff.mp h
  · have hbytes : bytesOf [e] = [] := by simp [bytesOf, hr, hd]
    rw [afterEdge_of_command s hr, hd, hbytes]
    rfl
  · have hbytes : bytesOf [e] = [b] := by simp [bytesOf, hr, hd]
    rw [afterEdge_of_command s hr, hd, hbytes, afterCommand_byte, foldByte_eq_fold]
    rfl

/-- Edges inside a message fold their bytes in time order and change nothing else (41_fold_datapath.md R96). -/
theorem foldl_afterEdge_of_isBody (s : State) {es : List Edge} (h : ∀ e ∈ es, e.isBody = true) :
    es.foldl State.afterEdge s = s.setAcc (foldBytes s.acc (bytesOf es)) := by
  induction es generalizing s with
  | nil => rfl
  | cons e es ih =>
    obtain ⟨he, hes⟩ := List.forall_mem_cons.mp h
    rw [List.foldl_cons, ih _ hes, afterEdge_of_isBody s he, bytesOf_cons e es, foldBytes_append]
    rfl

/-- Settles O28: the run folds the edges' bytes from the armed accumulator, which is `ACC_AFTER`; the two orders of two bytes
are computed. -/
theorem byteSequenceFoldsInOrder : Obligations.ByteSequenceFoldsInOrder := by
  refine ⟨fun s es hacc hbody => ?run, rfl, accAfter_append_singleton, bytesOf_append, by decide +kernel,
    by decide +kernel⟩
  case run =>
    rw [runOver_eq_foldl, foldl_afterEdge_of_isBody s hbody, hacc]
    rfl

/-! ### The empty message -/

/-- No edge changes what the host is yet to drive. -/
@[simp] theorem afterEdge_pins (s : State) (e : Edge) : (s.afterEdge e).pins = s.pins := by
  cases hr : e.rst with
  | true => rw [afterEdge_of_rst s hr, resetEdge_pins]
  | false =>
    rw [afterEdge_of_command s hr]
    cases decode e.cmd <;> rfl

theorem checksum_nil : checksum [] = ['0', '0', '0', '0', '0', '0', '0', '0'] := by decide

/-- A FINAL that finds the accumulator armed publishes the checksum of the empty message (41_fold_datapath.md R97). -/
theorem afterCommand_final_of_armed {s : State} (d : Byte) (h : s.acc = Config.accInit) :
    s.afterCommand (.final d) =
      { s with acc := 0xFFFFFFFF#32, crc_q := 0x00000000#32, hex_q := 0x3030303030303030#64, out_valid := true } := by
  have hresult : finalize s.acc = Config.resetCrc := by rw [h]; decide
  rw [afterCommand_final, hresult, State.setResult, hexbus_resetCrc]
  rfl

/-- A FINAL directly after a re-arm publishes the empty message, and leaves every register at a value the past does not
influence (41_fold_datapath.md R97). -/
theorem runOver_final_of_isRearm (s : State) {e : Edge} (d : Byte) (h : e.isRearm = true) :
    s.runOver [e, .command (.final d)] =
      .next { s with acc := 0xFFFFFFFF#32, crc_q := 0x00000000#32, hex_q := 0x3030303030303030#64, out_valid := true } := by
  simp only [runOver_eq_foldl, List.foldl_cons, List.foldl_nil, afterEdge_command,
    afterCommand_final_of_armed d (afterEdge_acc_of_isRearm s h), afterEdge_pins]

/-- Settles O32: INIT, a reset and a FINAL each re-arm, and a FINAL directly after a re-arm publishes zero. -/
theorem emptyMessageIsProcessed : Obligations.EmptyMessageIsProcessed := by
  refine ⟨rfl, by decide, checksum_nil, fun s e f he => runOver_final_of_isRearm s f ?_⟩
  obtain ⟨d, rfl⟩ | hpublish := he
  · exact isRearm_command_init d
  · exact isRearm_of_rst_or_isFinal hpublish

end Sys2Proof.Machine
end

section
/-! PROOFS. The finalizer and the hex encoder (42_finalizer_hex.md R110 to R113): the characters and the digit values determine
each other, so do a word and its eight digits, and the bus is the text code by code. -/

namespace Sys2Proof.Machine

/-! ### The finalizer -/

/-- Settles O23: NOT is XOR with all ones, and undoes itself. -/
theorem finalizerComplementsEveryBit : Obligations.FinalizerComplementsEveryBit :=
  ⟨fun _ => BitVec.xor_allOnes.symm, finalize_bit, fun _ => BitVec.not_not, by decide, by decide, by decide⟩

/-! ### The sixteen characters -/

/-- Settles O24: a look at each of the sixteen entries. -/
theorem nibbleCharactersAndCodes : Obligations.NibbleCharactersAndCodes :=
  ⟨by decide, by decide, by decide⟩

/-- The sixteen characters are pairwise distinct (42_finalizer_hex.md R112). -/
theorem nibbleChar_injective : Function.Injective nibbleChar := by
  unfold Function.Injective
  decide

/-- The alphabet is what the digits are rendered to (42_finalizer_hex.md R112). -/
theorem mem_hexAlphabet_iff (t : Char) : t ∈ hexAlphabet ↔ t ∈ Set.range nibbleChar := by
  constructor
  · intro h
    obtain ⟨j, hj, rfl⟩ := List.mem_iff_getElem.mp h
    exact ⟨BitVec.ofNatLT j (hj.trans_eq hexAlphabet_length), rfl⟩
  · rintro ⟨n, rfl⟩
    exact List.getElem_mem _

/-! ### The eight digits of a word -/

/-- The digits of a word, the most significant first (42_finalizer_hex.md R111). -/
def nibblesOf (v : Word) : List Nibble := (List.range Config.hexChars).map (nibbleAt v)

/-- The word with given digits, the most significant first. -/
def wordOfNibbles (ns : List Nibble) : Word :=
  BitVec.ofFnLE fun j : Fin 32 => (ns.getD (7 - j / 4) 0#4).getLsbD (j % 4)

theorem hex8_eq_map_nibblesOf (v : Word) : hex8 v = (nibblesOf v).map nibbleChar := List.map_map.symm

@[simp] theorem nibblesOf_length (v : Word) : (nibblesOf v).length = 8 := rfl

theorem nibblesOf_getElem? (v : Word) {k : Nat} (h : k < 8) : (nibblesOf v)[k]? = some (nibbleAt v k) := by
  simp [nibblesOf, Config.hexChars, h]

/-- Bit `j` of a word is bit `j mod 4` of digit `7 - j / 4`. -/
theorem getLsbD_eq_getLsbD_nibbleAt (v : Word) {j : Nat} (h : j < 32) :
    v.getLsbD j = (nibbleAt v (7 - j / 4)).getLsbD (j % 4) := by
  have hplace : 28 - 4 * (7 - j / 4) + j % 4 = j := by omega
  rw [nibbleAt, BitVec.getLsbD_extractLsb', hplace]
  simp [Nat.mod_lt]

theorem nibblesOf_injective : Function.Injective nibblesOf := by
  intro v w h
  refine BitVec.eq_of_getLsbD_eq fun j hj => ?_
  have hdigit : nibbleAt v (7 - j / 4) = nibbleAt w (7 - j / 4) := by
    have hget := congrArg (fun ns : List Nibble => ns[7 - j / 4]?) h
    simpa only [nibblesOf_getElem? _ (show 7 - j / 4 < 8 by omega), Option.some.injEq] using hget
  rw [getLsbD_eq_getLsbD_nibbleAt v hj, getLsbD_eq_getLsbD_nibbleAt w hj, hdigit]

theorem nibbleAt_wordOfNibbles (ns : List Nibble) {k : Nat} (h : k < 8) :
    nibbleAt (wordOfNibbles ns) k = ns.getD k 0#4 := by
  refine BitVec.eq_of_getLsbD_eq fun i hi => ?_
  have hdigit : 7 - (28 - 4 * k + i) / 4 = k := by omega
  have hbit : (28 - 4 * k + i) % 4 = i := by omega
  have hrange : 28 - 4 * k + i < 32 := by omega
  simp [nibbleAt, wordOfNibbles, hi, hrange, hdigit, hbit]

/-- Any eight digits are those of a word. -/
theorem nibblesOf_wordOfNibbles {ns : List Nibble} (h : ns.length = 8) : nibblesOf (wordOfNibbles ns) = ns := by
  refine List.ext_getElem (h ▸ nibblesOf_length _) fun k hk hk' => ?_
  simpa [nibblesOf, hk'] using nibbleAt_wordOfNibbles ns hk

/-! ### The text of a word -/

@[simp] theorem hex8_length (v : Word) : (hex8 v).length = 8 := rfl

/-- Character `k` of the text renders digit `k` (42_finalizer_hex.md R111). -/
theorem hex8_getElem? (v : Word) {k : Nat} (h : k < 8) : (hex8 v)[k]? = some (hexChar v k) := by
  rw [hex8_eq_map_nibblesOf, List.getElem?_map, nibblesOf_getElem? v h]
  rfl

theorem mem_hexAlphabet_of_mem_hex8 {v : Word} {t : Char} (h : t ∈ hex8 v) : t ∈ hexAlphabet := by
  rw [hex8_eq_map_nibblesOf] at h
  obtain ⟨n, -, rfl⟩ := List.mem_map.mp h
  exact (mem_hexAlphabet_iff _).mpr ⟨n, rfl⟩

/-- Different words have different texts: the text determines the digits, and the digits the word. -/
theorem hex8_injective : Function.Injective hex8 := by
  intro v w h
  rw [hex8_eq_map_nibblesOf, hex8_eq_map_nibblesOf] at h
  exact nibblesOf_injective (List.map_injective_iff.mpr nibbleChar_injective h)

/-- Every text of eight characters of the alphabet is the text of a word: that of the digits it renders. -/
theorem exists_hex8_eq {text : List Char} (hlen : text.length = 8) (halpha : ∀ t ∈ text, t ∈ hexAlphabet) :
    ∃ v, hex8 v = text := by
  have hrendered : text ∈ Set.range (List.map nibbleChar) := by
    rw [Set.range_list_map]
    exact fun t ht => (mem_hexAlphabet_iff t).mp (halpha t ht)
  obtain ⟨ns, rfl⟩ := hrendered
  rw [List.length_map] at hlen
  exact ⟨wordOfNibbles ns, by rw [hex8_eq_map_nibblesOf, nibblesOf_wordOfNibbles hlen]⟩

/-- Settles O25: a text is its digits' characters, and a word its eight digits. -/
theorem hexTextIsBijection : Obligations.HexTextIsBijection :=
  ⟨fun v _ => hex8_getElem? v, fun v => ⟨hex8_length v, fun _ => mem_hexAlphabet_of_mem_hex8⟩,
    fun _ _ h => hex8_injective h, fun _ => exists_hex8_eq, by decide⟩

/-! ### The text bus -/

/-- Above a byte put below them, bytes stand 8 places higher. -/
theorem extractLsb'_append_byte {n : Nat} (high : BitVec n) (low : Byte) (start : Nat) :
    (high ++ low).extractLsb' (start + 8) 8 = high.extractLsb' start 8 :=
  BitVec.extractLsb'_append_eq_of_le (Nat.le_add_left 8 start)

/-- Byte `k` from the top of eight bytes side by side is byte `k`: the bytes below it drop one by one, then those above it. -/
theorem extractLsb'_append_eight_bytes (c : Nat → Byte) {k : Nat} (h : k < 8) :
    (c 0 ++ c 1 ++ c 2 ++ c 3 ++ c 4 ++ c 5 ++ c 6 ++ c 7).extractLsb' (56 - 8 * k) 8 = c k := by
  interval_cases k <;>
    simp only [Nat.reduceMul, Nat.reduceSub, extractLsb'_append_byte, BitVec.extractLsb'_append_eq_right,
      BitVec.extractLsb'_eq_self]

/-- Byte `k` from the top of the bus is the code of character `k` of the text (42_finalizer_hex.md R113). -/
theorem extractLsb'_hexbus (v : Word) {k : Nat} (h : k < 8) :
    (hexbus v).extractLsb' (56 - 8 * k) 8 = charCode (hexChar v k) :=
  extractLsb'_append_eight_bytes (fun k => charCode (hexChar v k)) h

/-- The bus spells the text left to right (42_finalizer_hex.md R113). -/
theorem hexbus_spells_hex8 (v : Word) {k : Nat} (h : k < 8) :
    ∃ t, (hex8 v)[k]? = some t ∧ (hexbus v).extractLsb' (56 - 8 * k) 8 = charCode t :=
  ⟨hexChar v k, hex8_getElem? v h, extractLsb'_hexbus v h⟩

/-- Settles O26: the bus is the eight codes side by side. -/
theorem hexBusSpellsText : Obligations.HexBusSpellsText :=
  ⟨fun v _ => hexbus_spells_hex8 v, by decide⟩

end Sys2Proof.Machine
end

section
/-! PROOFS. FINAL and the checksum of a message (42_finalizer_hex.md R114 to R117, R121): a message is a re-arm, its bytes, and a
FINAL, so what came before the re-arm has no part in the result. -/

namespace Sys2Proof.Machine

/-! ### FINAL -/

/-- Settles O22: FINAL is its four writes; after a re-arm it finds the accumulator armed and publishes the empty message. -/
theorem finalPublishesChecksumAndRearms : Obligations.FinalPublishesChecksumAndRearms := by
  refine ⟨exec_final, fun d => opField_encode (.final d), encode_final_zero, fun d s hacc => ?armed,
    fun _ d s he => runOver_final_of_isRearm s d (isRearm_of_rst_or_isFinal he), fun d s hacc => ?golden⟩
  case armed => rw [exec_eq_afterCommand, afterCommand_final_of_armed d hacc, ← hacc]
  case golden =>
    have hresult : finalize s.acc = 0xD87F7E0C#32 := by rw [hacc]; decide
    have htext : hexbus 0xD87F7E0C#32 = 0x6438376637653063#64 := by decide
    rw [exec_final, hresult, State.setResult, htext]
    rfl

/-! ### A message -/

/-- From an armed accumulator, the bytes of a message and FINAL publish its checksum and re-arm (42_finalizer_hex.md R116). -/
theorem foldl_afterEdge_message {s : State} {es : List Edge} (d : Byte) (hacc : s.acc = Config.accInit)
    (hbody : ∀ e ∈ es, e.isBody = true) :
    (es ++ [Edge.command (.final d)]).foldl State.afterEdge s =
      { s with acc := 0xFFFFFFFF#32, crc_q := crc32 (bytesOf es), hex_q := hexbus (crc32 (bytesOf es)),
               out_valid := true } := by
  rw [List.foldl_append, foldl_afterEdge_of_isBody s hbody, hacc, List.foldl_cons, List.foldl_nil, afterEdge_command]
  rfl

/-- After a re-arm the bytes of a message and FINAL publish its checksum, whatever the past (42_finalizer_hex.md R116). -/
theorem runOver_message_of_isRearm (s : State) {e : Edge} {es : List Edge} (d : Byte) (he : e.isRearm = true)
    (hbody : ∀ e ∈ es, e.isBody = true) :
    s.runOver (e :: (es ++ [Edge.command (.final d)])) =
      .next { s with acc := 0xFFFFFFFF#32, crc_q := crc32 (bytesOf es), hex_q := hexbus (crc32 (bytesOf es)),
                     out_valid := true } := by
  rw [runOver_eq_foldl, List.foldl_cons, foldl_afterEdge_message d (afterEdge_acc_of_isRearm s he) hbody, afterEdge_pins]

/-- Settles O29: INIT, a reset and a FINAL each re-arm, and from an armed accumulator the message's bytes and FINAL publish its
checksum; the bus spells the text of any word. -/
theorem messageYieldsItsChecksum : Obligations.MessageYieldsItsChecksum := by
  refine fun s es d d' hbody => ⟨runOver_message_of_isRearm s d' (isRearm_command_init d) hbody, fun hacc => ?armed,
    fun e he => runOver_message_of_isRearm s d' (isRearm_of_rst_or_isFinal he) hbody,
    fun k => hexbus_spells_hex8 (crc32 (bytesOf es))⟩
  case armed => rw [runOver_eq_foldl, foldl_afterEdge_message d' hacc hbody, ← hacc]

/-- Settles O30: each run publishes the checksum of its bytes, and the bytes are the same. -/
theorem checksumIsDeterministic : Obligations.ChecksumIsDeterministic := by
  intro s s' es es' d d' f f' hbody hbody' hbytes
  refine ⟨_, _, runOver_message_of_isRearm s f (isRearm_command_init d) hbody,
    runOver_message_of_isRearm s' f' (isRearm_command_init d') hbody', ?_, ?_⟩ <;> simp only [hbytes]

/-- Settles O33: the checksum of each of the five texts is computed. -/
theorem goldenChecksums : Obligations.GoldenChecksums :=
  ⟨by decide +kernel, checksum_nil, by decide +kernel, by decide +kernel, by decide +kernel⟩

end Sys2Proof.Machine
end

section
/-! PROOFS. No fault and no refusal (60_exceptions.md R130): every step answers a next state, so every run ends in one. -/

namespace Sys2Proof.Machine

/-- The step when the host drives an edge next: the edge is taken and leaves the state after it (30_encoding.md R59). -/
theorem step_of_pins_cons {s : State} {e : Edge} {later : List Edge} (h : s.pins = e :: later) :
    step s = .next (({ s with pins := later } : State).afterEdge e) := by
  simp only [step, State.sampleEdge, h, exec_eq_afterCommand, State.afterEdge]
  split <;> rfl

/-- A step answers a next state, be there an edge to take or none (60_exceptions.md R130, R140). -/
theorem exists_step_eq_next (s : State) : ∃ t, step s = .next t := by
  cases hpins : s.pins with
  | nil => exact ⟨s, step_noEdge s hpins⟩
  | cons e later => exact ⟨_, step_of_pins_cons hpins⟩

/-- A run is safe when the step it begins with answers a state from which the rest is safe. -/
theorem safeRun_succ_of_step {s t : State} {k : Nat} (hstep : step s = .next t) (hrest : SafeRun k t) :
    SafeRun (k + 1) s := by
  obtain ⟨u, hu⟩ := hrest
  exact ⟨u, (run_succ_of_step k hstep).trans hu⟩

/-- A run of any length from any state is safe. -/
theorem safeRun (k : Nat) (s : State) : SafeRun k s := by
  induction k generalizing s with
  | zero => exact ⟨s, run_zero s⟩
  | succ k ih =>
    obtain ⟨t, hstep⟩ := exists_step_eq_next s
    exact safeRun_succ_of_step hstep (ih t)

/-- Settles O5: each command has its next state, and a run is safe by induction on its length. -/
theorem noFaultAndNoRefusal : Obligations.NoFaultAndNoRefusal :=
  ⟨fun i s => ⟨s.afterCommand i, exec_eq_afterCommand i s⟩, safeRun⟩

end Sys2Proof.Machine
end

section
/-! PROOFS. Reset held and released (70_reset_and_hazards.md R151), and the result held on the ports until the next FINAL or
reset (R159): what edges of one kind keep, a run over such edges keeps. -/

namespace Sys2Proof.Machine

/-! ### Reset held and released -/

/-- A second reset edge changes nothing more (70_reset_and_hazards.md R151). -/
@[simp] theorem resetEdge_resetEdge (s : State) : s.resetEdge.resetEdge = s.resetEdge := rfl

/-- Reset held for at least one edge leaves what one reset edge leaves. -/
theorem foldl_afterEdge_of_rst (s : State) {es : List Edge} (hne : es ≠ []) (hrst : ∀ e ∈ es, e.rst = true) :
    es.foldl State.afterEdge s = s.resetEdge := by
  obtain ⟨e, es, rfl⟩ := List.exists_cons_of_ne_nil hne
  obtain ⟨he, hes⟩ := List.forall_mem_cons.mp hrst
  rw [List.foldl_cons, afterEdge_of_rst s he]
  exact List.foldlRecOn es State.afterEdge (motive := (· = s.resetEdge)) rfl fun t ht f hf => by
    rw [afterEdge_of_rst t (hes f hf), ht, resetEdge_resetEdge]

/-- Settles O2: the held reset leaves `resetEdge`, which writes the reset values, and the edge after it executes its command on
that state. -/
theorem heldResetRepeatsAndReleasesAtOnce : Obligations.HeldResetRepeatsAndReleasesAtOnce := by
  intro s es cmd hne hrst
  have hheld : es.foldl State.afterEdge s = s.resetEdge := foldl_afterEdge_of_rst s hne hrst
  constructor
  · rw [runOver_eq_foldl, hheld]
    rfl
  · rw [runOver_eq_foldl, List.foldl_append, hheld, List.foldl_cons, List.foldl_nil, afterEdge_of_command _ rfl,
      ← exec_eq_afterCommand]
    rfl

/-! ### The result held -/

/-- NOP, INIT and BYTE do not disturb the outputs (70_reset_and_hazards.md R159). -/
theorem afterEdge_outputs_of_not_publish (s : State) {e : Edge} (hrst : e.rst = false) (hfinal : e.isFinal = false) :
    (s.afterEdge e).outputs = s.outputs := by
  rw [afterEdge_of_command s hrst]
  cases hd : decode e.cmd with
  | nop d => rfl
  | init d => rw [afterCommand_init, rearm_outputs]
  | byte b => rw [afterCommand_byte, setAcc_outputs]
  | final d => exact absurd (isFinal_iff.mpr ⟨hrst, d, hd⟩) (Bool.eq_false_iff.mp hfinal)

/-- Over edges with no reset and no FINAL the outputs stay as they were. -/
theorem foldl_afterEdge_outputs_of_not_publish (s : State) {es : List Edge}
    (h : ∀ e ∈ es, e.rst = false ∧ e.isFinal = false) : (es.foldl State.afterEdge s).outputs = s.outputs :=
  List.foldlRecOn es State.afterEdge (motive := (·.outputs = s.outputs)) rfl fun t ht e he =>
    have ⟨hrst, hfinal⟩ := h e he
    (afterEdge_outputs_of_not_publish t hrst hfinal).trans ht

/-- A FINAL puts its result, the result's text and 1 on the ports (42_finalizer_hex.md R114). -/
theorem afterEdge_final_outputs (s : State) (d : Byte) :
    (s.afterEdge (.command (.final d))).outputs = ⟨~~~s.acc, hexbus (~~~s.acc), true⟩ := by
  rw [afterEdge_command, afterCommand_final, rearm_outputs, setResult_setValid_outputs, finalize]

/-- Settles O40: each edge that is no reset and no FINAL keeps the outputs, so the run over such edges keeps those it begins
with, and after a FINAL they are its result. -/
theorem resultHeldUntilNextFinalOrReset : Obligations.ResultHeldUntilNextFinalOrReset := by
  refine fun s es hquiet => ⟨⟨_, runOver_eq_foldl s es, foldl_afterEdge_outputs_of_not_publish s hquiet⟩,
    fun d => ⟨_, runOver_eq_foldl s (.command (.final d) :: es), ?_⟩⟩
  rw [List.foldl_cons, foldl_afterEdge_outputs_of_not_publish _ hquiet, afterEdge_final_outputs]

end Sys2Proof.Machine
end

section
/-! PROOFS. The decoder against the encoder and against numbers (30_encoding.md section 1), and the step against the decoded
command (section 5). -/

namespace Sys2Proof

/-- The word of a command is the number `op * 256 + data` (30_encoding.md R51). -/
theorem toNat_encode (i : Instr) : (encode i).toNat = i.opcode.toNat * 256 + i.data.toNat :=
  toNat_op_append_data i.opcode i.data

/-- Settles O6: a word is its two fields side by side, from which decoder and encoder build and take apart a command. -/
theorem decodeEncodeInverse : Obligations.DecodeEncodeInverse := by
  obtain ⟨-, -, hnumber⟩ := commandWordIsOpAboveData
  exact ⟨decode_encode, encode_decode, hnumber, toNat_encode⟩

/-- Settles O9: a look at each of the eight words. -/
theorem wordsOutOfBitsDecode : Obligations.WordsOutOfBitsDecode := by
  unfold Obligations.WordsOutOfBitsDecode
  decide

theorem decodeNat_of_lt {n : Nat} (h : n < 1024) : decodeNat n = .ok (decode (BitVec.ofNat 10 n)) := if_pos h

theorem decodeNat_of_le {n : Nat} (h : 1024 ≤ n) : decodeNat n = .error .widerThanCommandWord := if_neg (Nat.not_lt.mpr h)

/-- Settles O10: the two branches of the decoder of numbers (log entry 4). -/
theorem numbersBeyondTenBitsAreNoCommand : Obligations.NumbersBeyondTenBitsAreNoCommand := by
  refine fun nbits w => ⟨fun h => ?fits, fun h => ?wide⟩
  case fits => rw [decodeTableWord, decodeNat_of_lt h]; rfl
  case wide => rw [decodeTableWord, decodeNat_of_le h]; rfl

namespace Machine

/-- The step at an edge without reset is the meaning of its command (30_encoding.md R59). -/
theorem step_of_pins_command {s : State} {cmd : CmdWord} {later : List Edge}
    (h : s.pins = { rst := false, cmd := cmd } :: later) : step s = exec (decode cmd) { s with pins := later } := by
  rw [step_of_pins_cons h, afterEdge_of_command _ rfl, exec_eq_afterCommand]

/-- Settles O3: the step takes the first of the edges to come, and `withFetchWord` puts its word there. -/
theorem stepRunsDecodedCommand : Obligations.StepRunsDecodedCommand :=
  ⟨fun _ _ _ => step_of_pins_command, fun s _ _ => step_of_pins_command (presentCommand_pins s _), step_noEdge⟩

/-- No command changes what the host is yet to drive. -/
@[simp] theorem afterCommand_pins (s : State) (i : Instr) : (s.afterCommand i).pins = s.pins := by
  cases i <;> rfl

/-- Settles O42: the registers each of the four commands writes. -/
theorem commandsChangeOnlyTheirRegisters : Obligations.CommandsChangeOnlyTheirRegisters := by
  intro i s t h
  rw [exec_eq_afterCommand] at h
  obtain rfl := Host.Outcome.next.inj h
  refine ⟨afterCommand_pins s i, ?_⟩
  cases i <;> simp [Config.accInit]

/-- Settles O38: at reset the text is that of the checksum, and the checksum is the one of a clear flag. -/
theorem invariantAtReset : Obligations.InvariantAtReset :=
  ⟨⟨reset_drive_textMatches [], fun _ => reset_crc_q⟩, hexbus_resetCrc⟩

end Machine

end Sys2Proof
end

section
/-! PROOFS. The block as a holder of messages (60_exceptions.md R141, R142): every edge takes registers that are those of an
exchange to those of the exchange after the edge. -/

namespace Sys2Proof.Machine

theorem exchange_edge_of_rst (m : Exchange) {e : Edge} (h : e.rst = true) : m.edge e = Exchange.reset := if_pos h

theorem represents_reset_resetEdge (s : State) : Exchange.reset.Represents s.resetEdge :=
  ⟨rfl, rfl, hexbus_resetCrc.symm, rfl⟩

/-- Each command keeps the registers those of the exchange: NOP changes neither, INIT drops the bytes in progress, BYTE folds
one more, and FINAL publishes them. -/
theorem exchange_edge_represents_afterEdge {m : Exchange} {s : State} (e : Edge) (h : m.Represents s) :
    (m.edge e).Represents (s.afterEdge e) := by
  cases hr : e.rst with
  | true =>
    rw [exchange_edge_of_rst m hr, afterEdge_of_rst s hr]
    exact represents_reset_resetEdge s
  | false =>
    obtain ⟨hacc, hcrc, hhex, hvalid⟩ := h
    rw [afterEdge_of_command s hr, Exchange.edge, hr]
    cases decode e.cmd with
    | nop d => exact ⟨hacc, hcrc, hhex, hvalid⟩
    | init d => exact ⟨rfl, hcrc, hhex, hvalid⟩
    | byte b =>
      refine ⟨?_, hcrc, hhex, hvalid⟩
      rw [afterCommand_byte, setAcc_acc, foldByte_eq_fold, hacc]
      exact (accAfter_append_singleton m.current b).symm
    | final d =>
      have hresult : finalize s.acc = crc32 m.current := congrArg finalize hacc
      rw [afterCommand_final, hresult]
      exact ⟨rfl, rfl, rfl, rfl⟩

theorem foldl_exchange_edge_represents_foldl_afterEdge {m : Exchange} {s : State} (es : List Edge) (h : m.Represents s) :
    (es.foldl Exchange.edge m).Represents (es.foldl State.afterEdge s) :=
  List.foldl_rel (r := Exchange.Represents) h fun e _ _ _ => exchange_edge_represents_afterEdge e

/-- No run over driven edges changes what the host is to drive after them. -/
theorem foldl_afterEdge_pins (s : State) (es : List Edge) : (es.foldl State.afterEdge s).pins = s.pins :=
  List.foldlRecOn es State.afterEdge (motive := (·.pins = s.pins)) rfl fun t ht e _ => (afterEdge_pins t e).trans ht

/-- Settles O44: the simulation holds at reset and along one edge, so along any edges. -/
theorem registersRepresentMessages : Obligations.RegistersRepresentMessages :=
  ⟨represents_reset_resetEdge State.reset, fun _ s es h =>
    ⟨_, runOver_eq_foldl s es, foldl_exchange_edge_represents_foldl_afterEdge es h, foldl_afterEdge_pins s es⟩⟩

end Sys2Proof.Machine
end

section
/-! PROOFS. The algebra of the fold (40_table_rom.md R78, 41_fold_datapath.md R90): it is linear over XOR and injective in each
argument, so messages that differ in one byte have different checksums. -/

namespace Sys2Proof.Machine

/-! ### Linearity -/

theorem romIndex_xor (a a' : Word) (b b' : Byte) :
    romIndex (a ^^^ a') (b ^^^ b') = romIndex a b ^^^ romIndex a' b' := by
  simp only [romIndex_eq_xor, BitVec.extractLsb'_xor]
  ac_rfl

theorem fold_xor (a a' : Word) (b b' : Byte) : fold (a ^^^ a') (b ^^^ b') = fold a b ^^^ fold a' b' := by
  simp only [fold, romIndex_xor, table_xor, BitVec.ushiftRight_xor_distrib]
  ac_rfl

/-- Settles O20: the index, the table and the shift are each linear over XOR. -/
theorem foldIsLinear : Obligations.FoldIsLinear := fold_xor

/-! ### Injectivity -/

/-- A field of a word shifted right is the field as many places higher. -/
theorem extractLsb'_ushiftRight {n : Nat} (w : BitVec n) (places start len : Nat) :
    (w >>> places).extractLsb' start len = w.extractLsb' (places + start) len := by
  ext j hj
  simp [Nat.add_assoc]

theorem table_injective : Function.Injective table := funext romRead_eq_table ▸ romRead_injective

/-- The top byte of a fold is that of the table's word, which determines the index (40_table_rom.md R78). -/
theorem romIndex_eq_zero_of_fold_eq_zero {a : Word} {b : Byte} (h : fold a b = 0#32) : romIndex a b = 0#8 := by
  refine romRead_topByte_eq_zero _ ?_
  have htop := congrArg (BitVec.extractLsb' 24 8) h
  rwa [fold, BitVec.extractLsb'_xor, topByte_ushiftRight_eight, BitVec.xor_zero, ← romRead_eq_table] at htop

/-- A fold of a zero byte is zero only from a zero accumulator: the index, which is the low byte, is zero, and then the fold is
the shift, which is the other three bytes. -/
theorem eq_zero_of_fold_zero_eq_zero (a : Word) (h : fold a 0#8 = 0#32) : a = 0#32 := by
  have hlow : a.extractLsb' 0 8 = 0#8 := by
    rw [← BitVec.xor_zero (x := a.extractLsb' 0 8), ← romIndex_eq_xor, romIndex_eq_zero_of_fold_eq_zero h]
  have hshift : a >>> 8 = 0#32 := by rw [← fold_lowByte, hlow, h]
  have hhigh : a.extractLsb' 8 24 = 0#24 :=
    (extractLsb'_ushiftRight a 8 0 24).symm.trans (by rw [hshift, BitVec.extractLsb'_zero])
  calc a
    _ = a.extractLsb' 8 24 ++ a.extractLsb' 0 8 :=
      (BitVec.extractLsb'_append_extractLsb' (w := 24) (len := 8)).symm
    _ = 0#32 := by rw [hhigh, hlow]; rfl

theorem fold_zero_injective : Function.Injective fun a : Word => fold a 0#8 :=
  injective_of_xor_linear (fun x y => fold_xor x y 0#8 0#8) eq_zero_of_fold_zero_eq_zero

/-- The accumulator's part of a fold and the byte's. -/
theorem fold_eq_xor (a : Word) (b : Byte) : fold a b = fold a 0#8 ^^^ fold 0#32 b := by
  rw [← fold_xor, BitVec.xor_zero, BitVec.zero_xor]

theorem fold_injective_acc (b : Byte) : Function.Injective fun a : Word => fold a b := by
  intro a a' h
  have hzero : fold a 0#8 ^^^ fold 0#32 b = fold a' 0#8 ^^^ fold 0#32 b := by
    rw [← fold_eq_xor, ← fold_eq_xor]
    exact h
  exact fold_zero_injective ((BitVec.xor_left_inj _).mp hzero)

theorem fold_injective_byte (a : Word) : Function.Injective (fold a) := by
  intro b b' h
  have hindex : romIndex a b = romIndex a b' := table_injective ((BitVec.xor_left_inj _).mp h)
  rw [romIndex_eq_xor, romIndex_eq_xor] at hindex
  exact (BitVec.xor_right_inj _).mp hindex

/-- Settles O21: an accumulator's difference that folds to zero is zero, and the byte determines the index, the index the
word. -/
theorem foldIsInjective : Obligations.FoldIsInjective :=
  ⟨fun b _ _ h => fold_injective_acc b h, fun a _ _ h => fold_injective_byte a h⟩

/-! ### Messages that differ in one byte -/

theorem foldBytes_injective (bs : List Byte) : Function.Injective fun a : Word => foldBytes a bs := by
  induction bs with
  | nil => exact fun _ _ h => h
  | cons b bs ih => exact fun _ _ h => fold_injective_acc b (ih h)

theorem finalize_injective : Function.Injective finalize := fun _ _ h => BitVec.not_inj.mp h

/-- Settles O34: the two bytes fold one accumulator to different ones, the bytes after them keep these apart, and so does the
finalizer. -/
theorem oneChangedByteChangesChecksum : Obligations.OneChangedByteChangesChecksum := by
  intro before after b b' hne hcrc
  have hacc : foldBytes Config.accInit (before ++ b :: after) = foldBytes Config.accInit (before ++ b' :: after) :=
    finalize_injective hcrc
  rw [foldBytes_append, foldBytes_append] at hacc
  exact hne (fold_injective_byte _ (foldBytes_injective after hacc))

end Sys2Proof.Machine
end

section
/-! PROOFS. Folding the bytes of a word, the least significant first: it is folding as many zero bytes into the XOR of
accumulator and word, which reaches every accumulator value (10_state.md R11) and leaves a constant after a checksum
(93_implementation_defined.md G4). -/

namespace Sys2Proof.Machine

/-- The `n` lowest bytes of a word, the least significant first. -/
def lowBytes : Nat → Word → List Byte
  | 0, _ => []
  | n + 1, w => w.extractLsb' 0 8 :: lowBytes n (w >>> 8)

theorem lowBytes_four (w : Word) :
    lowBytes 4 w = [w.extractLsb' 0 8, w.extractLsb' 8 8, w.extractLsb' 16 8, w.extractLsb' 24 8] := by
  simp only [lowBytes, extractLsb'_ushiftRight, ← BitVec.shiftRight_add]

/-- Folding the low byte of `w`, by linearity: a zero byte into `a XOR w`, and the byte's own word with nothing but the shift. -/
theorem fold_lowByte_of_word (a w : Word) : fold a (w.extractLsb' 0 8) = fold (a ^^^ w) 0#8 ^^^ (w >>> 8) := by
  rw [← fold_lowByte w, ← fold_xor, BitVec.zero_xor, xor_cancel_right]

/-- Folding the `n` lowest bytes of `w` is folding `n` zero bytes into `a XOR w`, but for the bytes of `w` not yet folded. -/
theorem foldBytes_lowBytes (n : Nat) (a w : Word) :
    foldBytes a (lowBytes n w) = foldBytes (a ^^^ w) (List.replicate n 0#8) ^^^ (w >>> (8 * n)) := by
  induction n generalizing a w with
  | zero => exact (xor_cancel_right a w).symm
  | succ n ih =>
    calc foldBytes a (lowBytes (n + 1) w)
      _ = foldBytes (fold (a ^^^ w) 0#8 ^^^ (w >>> 8)) (lowBytes n (w >>> 8)) := by rw [← fold_lowByte_of_word]; rfl
      _ = foldBytes (fold (a ^^^ w) 0#8) (List.replicate n 0#8) ^^^ (w >>> (8 * (n + 1))) := by
        rw [ih, xor_cancel_right, ← BitVec.shiftRight_add, Nat.mul_succ, Nat.add_comm 8]

theorem foldBytes_lowBytes_four (a w : Word) :
    foldBytes a (lowBytes 4 w) = foldBytes (a ^^^ w) (List.replicate 4 0#8) := by
  rw [foldBytes_lowBytes, BitVec.ushiftRight_eq_zero (Nat.le_refl 32), BitVec.xor_zero]

/-! ### Every accumulator value -/

/-- Folding the four bytes of some word takes an accumulator to any value. -/
theorem exists_foldBytes_lowBytes_eq (a v : Word) : ∃ w, foldBytes a (lowBytes 4 w) = v := by
  obtain ⟨u, hu⟩ := Finite.surjective_of_injective (foldBytes_injective (List.replicate 4 0#8)) v
  refine ⟨a ^^^ u, ?_⟩
  rw [foldBytes_lowBytes_four, xor_cancel_left]
  exact hu

/-- Settles O35: the four bytes are those of a word that the fold takes the armed accumulator to `v` with. -/
theorem everyAccumulatorValueIsReached : Obligations.EveryAccumulatorValueIsReached := by
  intro v
  obtain ⟨w, hw⟩ := exists_foldBytes_lowBytes_eq Config.accInit v
  refine ⟨w.extractLsb' 0 8, w.extractLsb' 8 8, w.extractLsb' 16 8, w.extractLsb' 24 8, fun s d => ?_⟩
  have hrun := runOver_commands s (.init d :: (lowBytes 4 w).map Instr.byte)
  rw [List.foldl_cons, foldl_afterCommand_bytes, afterCommand_init, rearm_acc, hw, lowBytes_four] at hrun
  exact hrun

/-! ### The residue -/

/-- An accumulator XOR its complement is all ones, whatever the accumulator. -/
theorem xor_finalize (a : Word) : a ^^^ finalize a = 0xFFFFFFFF#32 := by
  rw [finalize, ← BitVec.xor_allOnes, xor_cancel_left]
  rfl

/-- Settles O36: folding the checksum's bytes is folding four zero bytes into all ones. -/
theorem appendedChecksumLeavesResidue : Obligations.AppendedChecksumLeavesResidue := by
  intro bs
  have hall : foldBytes 0xFFFFFFFF#32 (List.replicate 4 0#8) = 0xDEBB20E3#32 := by decide +kernel
  rw [← lowBytes_four, accAfter, foldBytes_append, foldBytes_lowBytes_four, crc32, accAfter, xor_finalize, hall]

/-! ### The ROM through the ports -/

theorem romIndex_accInit (i : Byte) : romIndex Config.accInit (i ^^^ 0xFF#8) = i := by
  have hlow : Config.accInit.extractLsb' 0 8 = 0xFF#8 := by decide
  rw [romIndex_eq_xor, hlow, xor_xor_cancel_comm_assoc]

/-- The checksum of the one-byte message of program P4: the ROM's word and a constant. -/
theorem crc32_probe (i : Byte) : crc32 [i ^^^ 0xFF#8] = romRead i ^^^ 0xFF000000#32 := by
  have hshift : ~~~(Config.accInit >>> 8) = 0xFF000000#32 := by decide
  calc crc32 [i ^^^ 0xFF#8]
    _ = ~~~(table (romIndex Config.accInit (i ^^^ 0xFF#8)) ^^^ (Config.accInit >>> 8)) := rfl
    _ = romRead i ^^^ 0xFF000000#32 := by
      rw [romIndex_accInit, BitVec.not_xor_right, hshift, romRead_eq_table]

/-- Settles O15: INIT, BYTE, FINAL publish the checksum of the probe's one byte. -/
theorem portsProbeEveryRomWord : Obligations.PortsProbeEveryRomWord := by
  intro s i d d'
  have hrun := runOver_commands s (.init d :: ([i ^^^ 0xFF#8].map Instr.byte ++ [.final d']))
  rw [foldl_afterCommand_checksum, crc32_probe] at hrun
  refine ⟨_, hrun, ?_⟩
  exact (xor_cancel_right _ _).symm

end Sys2Proof.Machine
end

section
/-! PROOFS. The text register (10_state.md R13, R24): its bytes are character codes, and they determine the checksum. -/

namespace Sys2Proof.Machine

/-- The codes the bus carries are the sixteen of the table (42_finalizer_hex.md R112). -/
theorem isHexCode_charCode_nibbleChar : ∀ n : Nibble, isHexCode (charCode (nibbleChar n)) = true := by decide

/-- The sixteen codes are pairwise distinct (42_finalizer_hex.md R112). -/
theorem charCode_nibbleChar_injective : Function.Injective fun n : Nibble => charCode (nibbleChar n) := by
  unfold Function.Injective
  decide

/-- Different words have different buses: the bus determines the codes, these the digits, and the digits the word. -/
theorem hexbus_injective : Function.Injective hexbus := by
  intro v w h
  refine nibblesOf_injective (List.map_congr_left fun k hk => charCode_nibbleChar_injective ?_)
  have hlt : k < 8 := List.mem_range.mp hk
  calc charCode (nibbleChar (nibbleAt v k))
    _ = (hexbus v).extractLsb' (56 - 8 * k) 8 := (extractLsb'_hexbus v hlt).symm
    _ = (hexbus w).extractLsb' (56 - 8 * k) 8 := by rw [h]
    _ = charCode (nibbleChar (nibbleAt w k)) := extractLsb'_hexbus w hlt

/-- Settles O27: the register is a bus, whose bytes are codes, and the bus determines the word. -/
theorem hexRegisterHoldsLegalCodes : Obligations.HexRegisterHoldsLegalCodes := by
  refine ⟨fun s k htext hk => ?legal, fun s t hs ht heq => ?determined⟩
  case legal =>
    rw [show s.hex_q = hexbus s.crc_q from htext, extractLsb'_hexbus _ hk]
    exact isHexCode_charCode_nibbleChar _
  case determined => exact hexbus_injective (hs.symm.trans (heq.trans ht))

end Sys2Proof.Machine
end

section
/-! PROOFS. What the ports show (10_state.md section 6): without a FINAL, nothing of the accumulator. -/

namespace Sys2Proof.Machine

/-- An edge that is no FINAL takes equal outputs to equal outputs, whatever the accumulators: a reset overwrites them, and any
other edge leaves them. -/
theorem afterEdge_outputs_congr_of_not_final {s s' : State} {e : Edge} (hfinal : e.isFinal = false)
    (h : s.outputs = s'.outputs) : (s.afterEdge e).outputs = (s'.afterEdge e).outputs := by
  cases hr : e.rst with
  | true => simp only [afterEdge_of_rst _ hr, resetEdge_outputs]
  | false => simp only [afterEdge_outputs_of_not_publish _ hr hfinal, h]

theorem foldl_afterEdge_outputs_congr_of_not_final {s s' : State} {es : List Edge}
    (hfinal : ∀ e ∈ es, e.isFinal = false) (h : s.outputs = s'.outputs) :
    (es.foldl State.afterEdge s).outputs = (es.foldl State.afterEdge s').outputs :=
  List.foldl_rel (r := fun t t' : State => t.outputs = t'.outputs) h fun e he _ _ =>
    afterEdge_outputs_congr_of_not_final (hfinal e he)

/-- Settles O41: the result of a FINAL is held until the next FINAL or reset, and edges without a FINAL keep equal outputs
equal. -/
theorem accumulatorHiddenExceptThroughFinal : Obligations.AccumulatorHiddenExceptThroughFinal :=
  ⟨fun _ => rfl, fun s hpins => ⟨s, step_noEdge s hpins, rfl⟩,
    fun s d es hquiet => (resultHeldUntilNextFinalOrReset s es hquiet).2 d,
    fun s s' es hout hfinal => ⟨_, _, runOver_eq_foldl s es, runOver_eq_foldl s' es,
      foldl_afterEdge_outputs_congr_of_not_final hfinal hout⟩⟩

end Sys2Proof.Machine
end

section
/-! PROOFS. The wiring (40_table_rom.md R76, 41_fold_datapath.md R99, 42_finalizer_hex.md R119, R120): each sub-block computes
the function of its rule, so the registers load what the step leaves. -/

namespace Sys2Proof.Machine.Blocks

/-- The ROM and the folding datapath compute the fold (41_fold_datapath.md R99). -/
theorem romData_romAddr_xor_folded (a : Word) (b : Byte) : romData (romAddr a b) ^^^ folded a = foldByte a b := by
  rw [romData, romAddr, folded, foldByte, romIndex_eq_xor, ushiftRight_eight_eq_append]

/-- The finalizer's inverters (42_finalizer_hex.md R119). -/
theorem crcNext_eq_finalize (a : Word) : crcNext a = finalize a := BitVec.xor_allOnes

/-- The encoder's eight lookups spell the text (42_finalizer_hex.md R120). -/
theorem hexNext_eq_hexbus (v : Word) : hexNext v = hexbus v := by
  obtain ⟨-, -, hcode⟩ := nibbleCharactersAndCodes
  simp only [hexNext, hcode]
  rfl

/-- The registers loaded at an edge are those that the edge leaves: one case for reset and one for each value of `op`. -/
theorem coreEdge_eq_afterEdge (e : Edge) (s : State) : coreEdge e s = s.afterEdge e := by
  cases hr : e.rst with
  | true =>
    rw [afterEdge_of_rst s hr, coreEdge, hr]
    rfl
  | false =>
    rw [afterEdge_of_command s hr, coreEdge, hr, crcNext_eq_finalize, hexNext_eq_hexbus]
    obtain ⟨hop, hd⟩ | ⟨hop, hd⟩ | ⟨hop, hd⟩ | ⟨hop, hd⟩ := decode_cases e.cmd
    · rw [hop, hd]; rfl
    · rw [hop, hd]; rfl
    · rw [hop, hd, afterCommand_byte, ← romData_romAddr_xor_folded]; rfl
    · rw [hop, hd]; rfl

/-- Settles O43: the run over one edge leaves the state after the edge, which the sub-blocks load. -/
theorem subBlocksImplementTheStep : Obligations.SubBlocksImplementTheStep := fun s e => by
  rw [runOver_eq_foldl, List.foldl_cons, List.foldl_nil, coreEdge_eq_afterEdge]

end Sys2Proof.Machine.Blocks
end

section
/-! PROOFS. Copies of the block (60_exceptions.md section 6): a schedule gives each copy as many steps as it names its place,
and nothing else. -/

namespace Sys2Proof.Machine

/-- The state a step leaves: that after the next edge, or the state itself when the host drives none (log entry 1). -/
def State.afterStep (s : State) : State :=
  match s.pins with
  | [] => s
  | e :: later => ({ s with pins := later } : State).afterEdge e

theorem step_eq_afterStep (s : State) : step s = .next s.afterStep := by
  cases hpins : s.pins with
  | nil => rw [step_noEdge s hpins, State.afterStep, hpins]
  | cons e later => rw [step_of_pins_cons hpins, State.afterStep, hpins]

/-- A run is the iteration of the step (30_encoding.md R59). -/
theorem run_eq_iterate (k : Nat) (s : State) : Host.Core.run Sys2Proof.core k s = .next (State.afterStep^[k] s) := by
  induction k generalizing s with
  | zero => rfl
  | succ k ih => exact (run_succ_of_step k (step_eq_afterStep s)).trans (ih s.afterStep)

/-- A turn of a place steps the copy there, if there is one (log entry 13). -/
theorem stepAt_eq_modify (all : Copies) (k : Nat) : all.stepAt k = .next (all.modify k State.afterStep) := by
  cases hk : all[k]? with
  | none =>
    rw [List.modify_eq_self (List.getElem?_eq_none_iff.mp hk)]
    simp only [Copies.stepAt, hk]
  | some s =>
    simp only [Copies.stepAt, hk, step_eq_afterStep, List.modify_eq_set_getElem?]
    rfl

/-- The copies after a schedule: each stepped as often as the schedule names its place. -/
def Copies.afterSchedule (order : List Nat) (all : Copies) : Copies :=
  all.mapIdx fun k s => State.afterStep^[order.count k] s

@[simp] theorem afterSchedule_length (order : List Nat) (all : Copies) :
    (all.afterSchedule order).length = all.length := List.length_mapIdx

theorem afterSchedule_getElem? (order : List Nat) (all : Copies) (k : Nat) :
    (Copies.afterSchedule order all)[k]? = all[k]?.map State.afterStep^[order.count k] := List.getElem?_mapIdx

/-- The first turn of a schedule comes before the later ones. -/
theorem afterSchedule_cons (k : Nat) (order : List Nat) (all : Copies) :
    Copies.afterSchedule (k :: order) all = Copies.afterSchedule order (all.modify k State.afterStep) := by
  refine List.ext_getElem? fun j => ?_
  rw [afterSchedule_getElem?, afterSchedule_getElem?]
  by_cases hj : k = j
  · subst hj
    rw [List.count_cons_self, Function.iterate_succ, ← Option.map_map, List.getElem?_modify_eq]
    rfl
  · rw [List.count_cons_of_ne hj, List.getElem?_modify_ne _ _ hj]

theorem afterSchedule_nil (all : Copies) : Copies.afterSchedule [] all = all :=
  List.mapIdx_eq_iff.mpr fun _ => by simp

theorem run_eq_afterSchedule (order : List Nat) (all : Copies) :
    Copies.run order all = .next (all.afterSchedule order) := by
  induction order generalizing all with
  | nil => rw [afterSchedule_nil, Copies.run]
  | cons k order ih =>
    simp only [Copies.run, stepAt_eq_modify, ih, afterSchedule_cons]

/-- Settles O45: a copy ends where the run of as many steps ends, and permutations name each place equally often. -/
theorem copiesDoNotInteract : Obligations.CopiesDoNotInteract := by
  refine ⟨fun order all => ⟨_, run_eq_afterSchedule order all, afterSchedule_length order all, fun k s hk => ?alone⟩,
    fun order order' all hperm => ?permuted⟩
  case alone => exact ⟨_, run_eq_iterate _ s, by rw [afterSchedule_getElem?, hk]; rfl⟩
  case permuted =>
    rw [run_eq_afterSchedule, run_eq_afterSchedule]
    simp only [Copies.afterSchedule, hperm.count_eq]

end Sys2Proof.Machine
end

section
/-! PROOFS. Reading numbers (30_encoding.md R56): the two digits the disassembler writes of a byte and the decimal digits of
any number are read back. -/

namespace Sys2Proof.Machine

/-! ### Digits -/

/-- Digits are read in order, the last one onto the number read so far. -/
theorem readDigits_append_singleton (base : Nat) (digit : Char → Option Nat) (n : Nat) (ds : List Char) (d : Char) :
    readDigits base digit n (ds ++ [d]) =
      (readDigits base digit n ds).bind fun m => (digit d).map fun k => m * base + k := by
  induction ds generalizing n with
  | nil => cases hd : digit d <;> simp [readDigits, hd]
  | cons f ds ih => cases hf : digit f <;> simp [readDigits, hf, ih]

theorem decDigit_digitChar : ∀ d < 10, decDigit d.digitChar = some d := by decide

theorem hexDigit_upperDigits : ∀ d < 16, hexDigit (upperDigits.getD d '?') = some d := by decide

/-- Decimal digits are read back: the last digit is the remainder, the ones before it denote the quotient. -/
theorem readDigits_toDigits (n : Nat) : readDigits 10 decDigit 0 (Nat.toDigits 10 n) = some n := by
  induction n using Nat.strong_induction_on with
  | h n ih =>
    by_cases hn : n < 10
    · rw [Nat.toDigits_of_lt_base hn, ← List.nil_append [n.digitChar], readDigits_append_singleton,
        decDigit_digitChar n hn]
      simp [readDigits]
    · rw [Nat.toDigits_of_base_le (by decide) (Nat.not_lt.mp hn), readDigits_append_singleton,
        ih (n / 10) (by omega), decDigit_digitChar _ (Nat.mod_lt n (by decide))]
      simp [Nat.div_add_mod']

/-! ### Operands -/

/-- An operand without an `x` is read in decimal. -/
theorem readNumber_of_not_hex {t : List Char} (hne : t ≠ []) (hx : 'x' ∉ t) : readNumber t = readDigits 10 decDigit 0 t := by
  unfold readNumber
  split
  · exact absurd rfl hne
  · simp at hx
  · simp at hx
  · rfl

theorem isAlphanum_of_mem_toDigits {n : Nat} {d : Char} (h : d ∈ Nat.toDigits 10 n) : d.isAlphanum = true := by
  have hdigit : d.isDigit = true := Nat.isDigit_of_mem_toDigits (by decide) (by decide) h
  rw [Char.isAlphanum, hdigit, Bool.or_true]

theorem readNumber_toDigits (n : Nat) : readNumber (Nat.toDigits 10 n) = some n := by
  have hx : 'x' ∉ Nat.toDigits 10 n := fun h =>
    absurd (Nat.isDigit_of_mem_toDigits (by decide) (by decide) h) (by decide)
  rw [readNumber_of_not_hex Nat.toDigits_ne_nil hx, readDigits_toDigits]

/-- A byte written as `0xNN` is read back (30_encoding.md R56). -/
theorem readNumber_writeByte (b : Byte) : readNumber (writeByte b) = some b.toNat := by
  have hhigh := hexDigit_upperDigits (b.toNat / 16) (by omega)
  have hlow := hexDigit_upperDigits (b.toNat % 16) (by omega)
  simp [writeByte, readNumber, readDigits, -List.getD_eq_getElem?_getD, hhigh, hlow, Nat.div_add_mod']

theorem isAlphanum_of_mem_writeByte {b : Byte} {d : Char} (h : d ∈ writeByte b) : d.isAlphanum = true := by
  have hdigit : ∀ k < 16, (upperDigits.getD k '?').isAlphanum = true := by decide
  rw [writeByte] at h
  simp only [List.mem_cons, List.not_mem_nil, or_false] at h
  obtain rfl | rfl | rfl | rfl := h
  · decide
  · decide
  · exact hdigit _ (by omega)
  · exact hdigit _ (by omega)

end Sys2Proof.Machine
end

section
/-! PROOFS. Reading lines (30_encoding.md R56, R57; log entry 14): comments are ignored, and a line of a mnemonic and an operand
is read as such. -/

namespace Sys2Proof.Machine

/-! ### Comments -/

/-- Text without quotes is kept, between quotes or where it has no `;`. -/
theorem dropComment_append {quoted : Bool} {t : List Char} (rest : List Char) (hquote : quoteChar ∉ t)
    (hsemi : quoted = true ∨ ';' ∉ t) : dropComment quoted (t ++ rest) = t ++ dropComment quoted rest := by
  induction t with
  | nil => rfl
  | cons f t ih =>
    obtain ⟨hf, ht⟩ := List.ne_and_not_mem_of_not_mem_cons hquote
    have hkept : (f == ';' && !quoted) = false := by
      obtain rfl | hsemi := hsemi
      · exact Bool.and_false _
      · simp [(List.ne_of_not_mem_cons hsemi).symm]
    simp [dropComment, Ne.symm hf, hkept, ih ht (hsemi.imp_right List.not_mem_of_not_mem_cons)]

/-- A `;` after an even number of quotes begins a comment or stands in one, so it is ignored with all after it
(30_encoding.md R56, log entry 14). -/
theorem dropComment_append_comment (quoted : Bool) (t note : List Char)
    (heven : (t.count quoteChar + quoted.toNat) % 2 = 0) :
    dropComment quoted (t ++ ';' :: note) = dropComment quoted t := by
  induction t generalizing quoted with
  | nil =>
    cases quoted with
    | false => rfl
    | true => exact nomatch heven
  | cons f t ih =>
    by_cases hf : f = quoteChar
    · subst hf
      have hrest : (t.count quoteChar + (!quoted).toNat) % 2 = 0 := by
        rw [List.count_cons_self] at heven
        cases quoted <;> simp at heven ⊢ <;> omega
      simp [dropComment, ih (!quoted) hrest]
    · rw [List.count_cons_of_ne hf] at heven
      simp [dropComment, hf, ih quoted heven]

theorem parseLine_append_comment {t : List Char} (note : List Char) (heven : t.count quoteChar % 2 = 0) :
    parseLine (t ++ ';' :: note) = parseLine t := by
  simp only [parseLine, dropComment_append_comment false t note heven]

/-! ### Blanks -/

/-- A text that begins and ends without a blank is not trimmed. -/
theorem trim_eq_self {t : List Char} (hne : t ≠ []) (hhead : isBlank (t.head hne) = false)
    (hlast : isBlank (t.getLast hne) = false) : trim t = t := by
  have hleft : t.dropWhile isBlank = t :=
    List.dropWhile_eq_self_iff.mpr fun hpos => by simpa [List.head_eq_getElem] using hhead
  have hright : t.rdropWhile isBlank = t := List.rdropWhile_eq_self_iff.mpr fun _ => by simp [hlast]
  rw [trim, hleft]
  exact hright

/-- Letters and digits are no blanks, no quotes, no `;` and no line ends. -/
theorem isBlank_of_isAlphanum {f : Char} (h : f.isAlphanum = true) : isBlank f = false := by
  by_contra hblank
  simp only [isBlank, Bool.not_eq_false, Bool.or_eq_true, beq_iff_eq] at hblank
  obtain rfl | rfl := hblank
  · exact absurd h (by decide)
  · exact absurd h (by decide)

/-! ### Lines with an operand -/

/-- A line `BYTE` with an operand of letters and digits. -/
theorem parseLine_byte {operand : List Char} (hne : operand ≠ []) (halnum : ∀ f ∈ operand, f.isAlphanum = true) :
    parseLine (['B', 'Y', 'T', 'E', ' '] ++ operand) = withOperand .byte (readNumber operand) := by
  have hquote : quoteChar ∉ operand := fun h => absurd (halnum _ h) (by decide)
  have hsemi : ';' ∉ operand := fun h => absurd (halnum _ h) (by decide)
  have hcomment : dropComment false (['B', 'Y', 'T', 'E', ' '] ++ operand) = ['B', 'Y', 'T', 'E', ' '] ++ operand := by
    rw [dropComment_append operand (by decide) (.inr (by decide))]
    simpa [dropComment] using dropComment_append [] hquote (.inr hsemi)
  have hline : trim (['B', 'Y', 'T', 'E', ' '] ++ operand) = ['B', 'Y', 'T', 'E', ' '] ++ operand := by
    refine trim_eq_self (List.cons_ne_nil _ _) rfl ?_
    rw [List.getLast_append_of_ne_nil _ hne]
    exact isBlank_of_isAlphanum (halnum _ (List.getLast_mem hne))
  have hoperand : trim operand = operand :=
    trim_eq_self hne (isBlank_of_isAlphanum (halnum _ (List.head_mem hne)))
      (isBlank_of_isAlphanum (halnum _ (List.getLast_mem hne)))
  rw [parseLine, hcomment, hline]
  exact congrArg (fun t => withOperand .byte (readNumber t)) hoperand

/-- A text between quotes is read. -/
theorem readQuoted_quoted {text : List Char} (hquote : quoteChar ∉ text) :
    readQuoted (quoteChar :: (text ++ [quoteChar])) = some text := by
  simp [readQuoted, hquote]

/-- A line `ASCII` with a text between quotes, whatever the text but for quotes. -/
theorem parseLine_ascii {text : List Char} (hquote : quoteChar ∉ text) :
    parseLine (['A', 'S', 'C', 'I', 'I', ' ', quoteChar] ++ text ++ [quoteChar]) = .ok (some (.ascii text)) := by
  have hcomment : dropComment false (['A', 'S', 'C', 'I', 'I', ' ', quoteChar] ++ text ++ [quoteChar]) =
      ['A', 'S', 'C', 'I', 'I', ' ', quoteChar] ++ text ++ [quoteChar] := by
    have htext : dropComment true (text ++ [quoteChar]) = text ++ [quoteChar] :=
      dropComment_append [quoteChar] hquote (.inl rfl)
    rw [List.append_assoc]
    exact congrArg (['A', 'S', 'C', 'I', 'I', ' ', quoteChar] ++ ·) htext
  have hline : trim (['A', 'S', 'C', 'I', 'I', ' ', quoteChar] ++ text ++ [quoteChar]) =
      ['A', 'S', 'C', 'I', 'I', ' ', quoteChar] ++ text ++ [quoteChar] := by
    refine trim_eq_self (List.cons_ne_nil _ _) rfl ?_
    rw [List.getLast_append_of_ne_nil _ (List.cons_ne_nil _ _)]
    decide
  have hoperand : trim (quoteChar :: (text ++ [quoteChar])) = quoteChar :: (text ++ [quoteChar]) := by
    refine trim_eq_self (List.cons_ne_nil _ _) rfl ?_
    rw [List.getLast_cons (by simp), List.getLast_append_of_ne_nil _ (List.cons_ne_nil _ _)]
    decide
  rw [parseLine, hcomment, hline]
  calc withOperand .ascii (readQuoted (trim (quoteChar :: (text ++ [quoteChar]))))
    _ = .ok (some (.ascii text)) := by rw [hoperand, readQuoted_quoted hquote, withOperand]

end Sys2Proof.Machine
end

section
/-! PROOFS. Assembling and disassembling (30_encoding.md R56): a text of one line is that line's words, and what is printed of a
word assembles to its canonical form. -/

namespace Sys2Proof.Machine

/-! ### Texts of one line -/

theorem cutAt_of_not_mem {sep : Char} {t : List Char} (h : sep ∉ t) : cutAt sep t = [t] := by
  induction t with
  | nil => rfl
  | cons f t ih =>
    obtain ⟨hf, ht⟩ := List.ne_and_not_mem_of_not_mem_cons h
    simp [cutAt, Ne.symm hf, ih ht]

theorem assembleLines_singleton (l : AsmLine) : assembleLines [l] = l.assemble := by
  cases h : l.assemble <;> simp [assembleLines, h]

theorem assembleText_of_parseLine {t : List Char} {l : AsmLine} (hline : newline ∉ t) (h : parseLine t = .ok (some l)) :
    assembleText t = l.assemble := by
  rw [assembleText, cutAt_of_not_mem hline, parseLines, h]
  exact assembleLines_singleton l

/-! ### BYTE -/

theorem assemble_byte_toNat (b : Byte) : (AsmLine.byte b.toNat).assemble = .ok [encode (.byte b)] := by
  have hrange : (AsmLine.byte b.toNat).wellFormed = true := decide_eq_true (Nat.le_of_lt_succ b.isLt)
  rw [assemble_of_wellFormed hrange, AsmLine.expand, byteCommand_toNat]
  rfl

theorem assemble_byte_of_gt {n : Nat} (h : 255 < n) : (AsmLine.byte n).assemble = .error .operandOutOfRange :=
  if_neg (by simpa [AsmLine.wellFormed] using h)

/-- A line `BYTE` with an operand that denotes a byte. -/
theorem assembleText_byte {operand : List Char} {b : Byte} (halnum : ∀ f ∈ operand, f.isAlphanum = true)
    (hread : readNumber operand = some b.toNat) :
    assembleText (['B', 'Y', 'T', 'E', ' '] ++ operand) = .ok [encode (.byte b)] := by
  have hne : operand ≠ [] := by
    rintro rfl
    exact nomatch hread
  have hoperand : newline ∉ operand := fun h => absurd (halnum _ h) (by decide)
  have hline : newline ∉ ['B', 'Y', 'T', 'E', ' '] ++ operand := List.not_mem_append (by decide) hoperand
  have hparse : parseLine (['B', 'Y', 'T', 'E', ' '] ++ operand) = .ok (some (.byte b.toNat)) := by
    rw [parseLine_byte hne halnum, hread, withOperand]
  rw [assembleText_of_parseLine hline hparse, assemble_byte_toNat]

theorem assembleText_byte_writeByte (b : Byte) :
    assembleText (['B', 'Y', 'T', 'E', ' '] ++ writeByte b) = .ok [encode (.byte b)] :=
  assembleText_byte (fun _ => isAlphanum_of_mem_writeByte) (readNumber_writeByte b)

theorem assembleText_byte_toDigits (b : Byte) :
    assembleText (['B', 'Y', 'T', 'E', ' '] ++ Nat.toDigits 10 b.toNat) = .ok [encode (.byte b)] :=
  assembleText_byte (fun _ => isAlphanum_of_mem_toDigits) (readNumber_toDigits b.toNat)

/-! ### Words that are not canonical -/

theorem newline_not_mem_ignoredNote (data : Byte) : newline ∉ ignoredNote data := by
  have hbyte : newline ∉ writeByte data := fun h => absurd (isAlphanum_of_mem_writeByte h) (by decide)
  exact List.not_mem_append (by decide) hbyte

/-- The note on the ignored bits is a comment after a blank. -/
theorem parseLine_append_ignoredNote {t : List Char} (data : Byte) (heven : t.count quoteChar % 2 = 0) :
    parseLine (t ++ ignoredNote data) = parseLine (t ++ [' ']) := by
  have hcount : (t ++ [' ']).count quoteChar = t.count quoteChar := by
    rw [List.count_append]
    rfl
  have hnote := parseLine_append_comment ([' ', 'd', 'a', 't', 'a', '='] ++ writeByte data) (hcount ▸ heven)
  rwa [List.append_assoc] at hnote

/-- A mnemonic without operand, with a note or without, is its line. -/
theorem assembleText_mnemonic {mnemonic : List Char} {l : AsmLine} (data : Byte) (hline : newline ∉ mnemonic)
    (heven : mnemonic.count quoteChar % 2 = 0) (hparse : parseLine mnemonic = .ok (some l))
    (hblank : parseLine (mnemonic ++ [' ']) = .ok (some l)) :
    assembleText (mnemonic ++ if data == 0#8 then [] else ignoredNote data) = l.assemble := by
  cases data == 0#8 with
  | true => exact assembleText_of_parseLine (by simpa using hline) (by simpa using hparse)
  | false =>
    exact assembleText_of_parseLine (List.not_mem_append hline (newline_not_mem_ignoredNote data))
      ((parseLine_append_ignoredNote data heven).trans hblank)

/-- The canonical form of a command: `data = 0` where it is ignored (30_encoding.md R54). -/
def canonicalForm : Instr → Instr
  | .nop _ => nopCommand
  | .init _ => initCommand
  | .byte b => .byte b
  | .final _ => finalCommand

/-- What is printed of a command assembles to its canonical form (30_encoding.md R54, R56). -/
theorem assembleText_mnemonic_textAfterMnemonic (i : Instr) :
    assembleText (i.mnemonic ++ textAfterMnemonic i) = .ok [encode (canonicalForm i)] := by
  cases i with
  | nop data =>
    exact assembleText_mnemonic (mnemonic := ['N', 'O', 'P']) (l := .nop) data (by decide) (by decide) rfl rfl
  | init data =>
    exact assembleText_mnemonic (mnemonic := ['I', 'N', 'I', 'T']) (l := .init) data (by decide) (by decide) rfl rfl
  | byte b => exact assembleText_byte_writeByte b
  | final data =>
    exact assembleText_mnemonic (mnemonic := ['F', 'I', 'N', 'A', 'L']) (l := .final) data (by decide) (by decide) rfl rfl

theorem assembleText_disassemble (w : CmdWord) :
    assembleText (disassemble w) = .ok [encode (canonicalForm (decode w))] :=
  assembleText_mnemonic_textAfterMnemonic (decode w)

theorem data_decode (w : CmdWord) : (decode w).data = dataField w := by
  rw [← dataField_encode, encode_decode]

theorem textAfterMnemonic_of_not_canonical {i : Instr} (h : i.canonical = false) :
    textAfterMnemonic i = ignoredNote i.data := by
  cases i with
  | nop data => exact if_neg (Bool.eq_false_iff.mp h)
  | init data => exact if_neg (Bool.eq_false_iff.mp h)
  | byte b => exact nomatch h
  | final data => exact if_neg (Bool.eq_false_iff.mp h)

/-- A word that is not canonical is printed with its `data` (30_encoding.md R56). -/
theorem disassemble_of_not_canonical {w : CmdWord} (h : (decode w).canonical = false) :
    disassemble w =
      (decode w).mnemonic ++ [' ', ';', ' ', 'd', 'a', 't', 'a', '='] ++ writeByte (dataField w) := by
  rw [disassemble, textAfterMnemonic_of_not_canonical h, data_decode, ignoredNote, List.append_assoc]

/-- Settles O46: a `BYTE` operand that denotes a byte gives the byte's word; comments and quoted texts are read as the scan for
`;` says; and what is printed of a word is a line of its mnemonic with an operand, a note, or nothing. -/
theorem assemblerTextOfCommands : Obligations.AssemblerTextOfCommands := by
  refine ⟨by decide, by decide, by decide, fun b => ⟨?hexadecimal, ?decimal⟩, fun _ => assemble_byte_of_gt,
    fun _ note => parseLine_append_comment note, fun _ => parseLine_ascii, fun w => ?disassembly,
    fun _ => disassemble_of_not_canonical⟩
  case hexadecimal => rw [assembleText_byte_writeByte, encode_byte_eq_add]
  case decimal => rw [assembleText_byte_toDigits, encode_byte_eq_add]
  case disassembly =>
    rw [assembleText_disassemble]
    cases hd : decode w with
    | nop data => rw [canonicalForm, nopCommand, encode_nop_zero]
    | init data => rw [canonicalForm, initCommand, encode_init_zero]
    | byte b =>
      have hw : encode (.byte b) = w := hd ▸ encode_decode w
      rw [canonicalForm, hw]
    | final data => rw [canonicalForm, finalCommand, encode_final_zero]

end Sys2Proof.Machine
end
